-- ==== Sys2Proof/Word.lean ====
section
/-! DEFINITION. The machine's words: every host-visible register and the command word are 32 bits, the
result register VAL is 64, a memory cell is a byte (00_scope.md R7, R10). -/

namespace Sys2Proof

/-- A byte of IBUF or BUF (R10). -/
abbrev Byte := BitVec 8

/-- A 32-bit register, a host data word or a command word (R7). -/
abbrev Word := BitVec 32

/-- The 64-bit result register VAL (R7, R25). -/
abbrev DWord := BitVec 64

end Sys2Proof
end

