-- ==== Sys2Proof/Syntax.lean ====
section
/-! DEFINITION. The seven commands (30_encoding.md R51), one constructor per row of
spec/opcode_table.json. -/

namespace Sys2Proof

/-- A command. `n` is the N field, an unsigned count (30_encoding.md R50); the other operands are implicit:
POS, LEN and BUF for every cursor command, ARG0, ARG1 and IBUF for EPF. A count no encoding admits is a term
the decoder never gives (log 16). -/
inductive Instr where
  /-- RDB n: checked fixed-width unsigned read, `readBits` (40_bit_cursor.md R62). -/
  | rdb (n : Nat)
  /-- RDBU n: unchecked fixed-width unsigned read (40_bit_cursor.md R64). -/
  | rdbu (n : Nat)
  /-- RDF: checked flag read, `readFlag` (40_bit_cursor.md R65). -/
  | rdf
  /-- RDUE: unsigned Exp-Golomb read, `readGolombUnsigned` (41_exp_golomb.md R72). -/
  | rdue
  /-- RDSE: signed Exp-Golomb read, `readGolombSigned` (41_exp_golomb.md R73). -/
  | rdse
  /-- HSP n: the space pre-check, `hasSpace` (40_bit_cursor.md R66). -/
  | hsp (n : Nat)
  /-- EPF: the emulation-prevention filter (42_emulation_prevention.md R79). -/
  | epf
  deriving DecidableEq, Repr

/-- The mnemonic of the opcode map (30_encoding.md R51). -/
def Instr.mnemonic : Instr → String
  | .rdb _ => "RDB"
  | .rdbu _ => "RDBU"
  | .rdf => "RDF"
  | .rdue => "RDUE"
  | .rdse => "RDSE"
  | .hsp _ => "HSP"
  | .epf => "EPF"

end Sys2Proof
end

