-- ==== Sys2Proof/WellFormed.lean ====
section
/-! DEFINITION. Which commands have an encoding: the range of the count operand N (30_encoding.md R50,
R52). -/

namespace Sys2Proof

/-- The operand is in the range R50 gives it: at most 64 for RDB and RDBU, any 16-bit count for HSP; the
others have no operand (their N is 0). -/
def Instr.wellFormed : Instr → Bool
  | .rdb n => decide (n ≤ 64)
  | .rdbu n => decide (n ≤ 64)
  | .rdf => true
  | .rdue => true
  | .rdse => true
  | .hsp n => decide (n ≤ 65535)
  | .epf => true

end Sys2Proof
end

