-- ==== Sys2Proof/Decode.lean ====
section
/-! DEFINITION. The command word (30_encoding.md R49 to R53): its fields, the total decoder from 32-bit
words to "legal command" or "illegal", the encoder, and the match and mask table of R53. -/

namespace Sys2Proof

/-- OP, bits 31:28 of the command word (R49). -/
def opField (w : Word) : BitVec 4 := w.extractLsb' 28 4

/-- RSV, bits 27:16 of the command word, which must be 0 (R49, R52). -/
def rsvField (w : Word) : BitVec 12 := w.extractLsb' 16 12

/-- N, bits 15:0 of the command word: unsigned, zero-extended, never scaled (R49, R50). -/
def countField (w : Word) : Nat := (w.extractLsb' 0 16).toNat

/-- Why a word is illegal (R52; 60_exceptions.md R88). -/
inductive IllegalWord where
  /-- OP is 0x0 or 0x8 to 0xF. -/
  | reservedOpcode
  /-- A bit of RSV is set. -/
  | reservedBitSet
  /-- N is above 64 for RDB or RDBU, or is not 0 for RDF, RDUE, RDSE or EPF. -/
  | countOutOfRange
  deriving DecidableEq, Repr

/-- The decoder's answer: "a total function from 32-bit words to legal command or illegal" (R52). -/
inductive Decoded where
  | legal (i : Instr)
  | illegal (why : IllegalWord)
  deriving DecidableEq, Repr

/-- The legality test shared by all opcodes: RSV is 0 and N is at most the opcode's limit (R52). -/
def decodeCount (limit : Nat) (make : Nat → Instr) (w : Word) : Decoded :=
  if rsvField w ≠ 0 then .illegal .reservedBitSet
  else if limit < countField w then .illegal .countOutOfRange
  else .legal (make (countField w))

/-- The decoder (R51, R52). -/
def decode (w : Word) : Decoded :=
  match (opField w).toNat with
  | 1 => decodeCount 64 .rdb w
  | 2 => decodeCount 64 .rdbu w
  | 3 => decodeCount 0 (fun _ => .rdf) w
  | 4 => decodeCount 0 (fun _ => .rdue) w
  | 5 => decodeCount 0 (fun _ => .rdse) w
  | 6 => decodeCount 65535 .hsp w
  | 7 => decodeCount 0 (fun _ => .epf) w
  | _ => .illegal .reservedOpcode

/-- The operation code of the opcode map (R51). -/
def Instr.opcode : Instr → BitVec 4
  | .rdb _ => 0x1
  | .rdbu _ => 0x2
  | .rdf => 0x3
  | .rdue => 0x4
  | .rdse => 0x5
  | .hsp _ => 0x6
  | .epf => 0x7

/-- The count operand N, 0 where the command has none (R50). -/
def Instr.count : Instr → Nat
  | .rdb n => n
  | .rdbu n => n
  | .rdf => 0
  | .rdue => 0
  | .rdse => 0
  | .hsp n => n
  | .epf => 0

/-- The encoder, `enc(m)` of R61: OP, then RSV = 0, then N (R49). -/
def encode (i : Instr) : Word := i.opcode ++ (0 : BitVec 12) ++ BitVec.ofNat 16 i.count

/-- One row of R53's table of match and mask pairs. -/
structure EncodingRow where
  mnemonic : String
  matchBits : Word
  mask : Word
  /-- The range condition on `w[15:0]`, where the row has one. -/
  maxCount : Option Nat
  deriving DecidableEq, Repr

/-- The table of R53. -/
def encodingRows : List EncodingRow :=
  [ ⟨"RDB", 0x10000000, 0xFFFF0000, some 64⟩,
    ⟨"RDBU", 0x20000000, 0xFFFF0000, some 64⟩,
    ⟨"RDF", 0x30000000, 0xFFFFFFFF, none⟩,
    ⟨"RDUE", 0x40000000, 0xFFFFFFFF, none⟩,
    ⟨"RDSE", 0x50000000, 0xFFFFFFFF, none⟩,
    ⟨"HSP", 0x60000000, 0xFFFF0000, none⟩,
    ⟨"EPF", 0x70000000, 0xFFFFFFFF, none⟩ ]

/-- "A word `w` selects a mnemonic when `(w AND mask) = match` and the range condition holds" (R53). -/
def EncodingRow.selects (r : EncodingRow) (w : Word) : Bool :=
  (w &&& r.mask == r.matchBits) &&
    (match r.maxCount with
     | some m => decide (countField w ≤ m)
     | none => true)

/-- The command word whose bits are the low `nbits` of `w`, every bit above them 0. -/
def tableWord (nbits w : Nat) : Word := BitVec.ofNat 32 (w % 2 ^ nbits)

/-- The instruction the decoder reads from a word of the opcode table, whose bit 0 is the command word's
bit 0 (the word is one 32-bit register write, so no byte order enters: R49). -/
def decodeTableWord (nbits w : Nat) : Option Instr :=
  match decode (tableWord nbits w) with
  | .legal i => some i
  | .illegal _ => none

end Sys2Proof
end

