-- ==== Sys2Proof/Config.lean ====
section
/-! DEFINITION. What one implementation of the block fixes (the parameters of 00_scope.md R6 and
20_memory.md R35) and the free values of 93_implementation_defined.md: constants with no body, so that
no proof can see a value of theirs and a claim that holds does so whatever they are. -/

namespace Sys2Proof

/-- The two treatments 93_implementation_defined.md U1 names for RDBU when `POS + n > 8 * LEN`.
DESIGN CHOICE (log 2), safe: the model carries both and `State.reset` takes the first. -/
inductive OverrunPolicy where
  /-- R64 "Model treatment": the fault `uncheckedOverrun`. -/
  | fault
  /-- U1: "A model that must continue instead may draw VAL, POS and CODE as `any value`". -/
  | anyValue
  deriving DecidableEq, Repr

/-- The implementation and platform parameters, which a model takes as arguments (R6, R35). -/
structure Params where
  /-- IBUF_BYTES, the capacity of IBUF in bytes. -/
  ibufBytes : Nat
  /-- BUF_BYTES, the capacity of BUF in bytes. -/
  bufBytes : Nat
  /-- K_MAX, the largest Exp-Golomb leading-zero count that decodes. -/
  kMax : Nat
  /-- EGVLD_BASE, the block's base in the host's physical address space. -/
  base : Nat
  /-- The model's own: how RDBU's undefined case is treated (log 2). -/
  overrun : OverrunPolicy
  deriving DecidableEq, Repr

/-- The size of the block's window in the host's address space (R35). -/
abbrev windowBytes : Nat := 0x40000

/-- The legal ranges of the parameters (R6; R35 for the base). -/
abbrev Params.Legal (p : Params) : Prop :=
  1 ≤ p.ibufBytes ∧ p.ibufBytes ≤ p.bufBytes ∧ p.bufBytes ≤ 65536 ∧ p.kMax ≤ 63 ∧
    p.base % windowBytes = 0

namespace Config

/-- The parameters of `State.reset`. K_MAX = 31 is the spec's default (R6); the sizes and the base, which
the spec leaves OPEN, are a DESIGN CHOICE (log 1), unsafe: no claim may rest on them. -/
def resetParams : Params :=
  { ibufBytes := 65536, bufBytes := 65536, kMax := 31, base := 0, overrun := .fault }

/-- The data of the `d`-th host read that returns any value (20_memory.md R43, 70_reset_and_hazards.md
R101; U2, U4). -/
opaque freeWord : Nat → Word

/-- Byte `i` of IBUF in draw `d` of its contents (10_state.md R33; U3): drawn once at reset, then held. -/
opaque freeIbufByte : (d i : Nat) → Byte

/-- Byte `i` of BUF in draw `d` of its contents (10_state.md R33; U3): drawn once at reset, then held. -/
opaque freeBufByte : (d i : Nat) → Byte

/-- VAL after the undefined case of RDBU under `OverrunPolicy.anyValue` (40_bit_cursor.md R64; U1). -/
opaque freeVal : Nat → DWord

/-- POS after the undefined case of RDBU under `OverrunPolicy.anyValue` (R64; U1). -/
opaque freePos : Nat → Word

/-- STATUS.CODE after the undefined case of RDBU under `OverrunPolicy.anyValue` (R64; U1). -/
opaque freeCode : Nat → BitVec 4

end Config

end Sys2Proof
end

