-- ==== Sys2Proof/Machine/State.lean ====
section
/-! DEFINITION. The state of the machine: everything 10_state.md R17 gives the block, the reset input,
the parameters, and the agents' coming moves, all plain data. -/

namespace Sys2Proof.Machine

/-- A byte memory as the list of the bytes written since the last reset, addresses strictly rising. An
address that is not listed has no written value: it reads as its free value of the last reset (log 3). -/
abbrev Memory := List Host.Cell

/-- What the host, or the platform's reset line, does next (20_memory.md R36, 70_reset_and_hazards.md
R101). Addresses are byte addresses of the host's physical address space (R35). -/
inductive HostEvent where
  /-- A 32-bit read. -/
  | read (addr : Nat)
  /-- A 32-bit write of `data`; bit `j` of `be` is the byte enable BE[j]. -/
  | write (addr : Nat) (data : Word) (be : BitVec 4)
  /-- `wait` of 30_encoding.md R61: read STATUS again and again until BUSY = 0 (one read a move). -/
  | wait
  /-- The reset input is asserted (R101). -/
  | assertReset
  /-- The reset input is released (R101). -/
  | releaseReset
  deriving DecidableEq, Repr

/-- The two agents (00_scope.md R15). -/
inductive Agent where
  | host
  | sequencer
  deriving DecidableEq, Repr

/-- The state. ERR, IRQ, CONFIG, IBUF_SIZE and BUF_SIZE are functions of it (10_state.md R17, R21), not
fields. The command in flight (R32) is `cmd` while `busy` holds. -/
structure State where
  /-- IBUF_BYTES, BUF_BYTES, K_MAX, EGVLD_BASE; nothing changes them (00_scope.md R6, 20_memory.md R35). -/
  params : Params
  /-- CMD (10_state.md R20). -/
  cmd : Word
  /-- STATUS.BUSY (R21). -/
  busy : Bool
  /-- STATUS.DONE (R21). -/
  done : Bool
  /-- STATUS.OVR (R21). -/
  ovr : Bool
  /-- STATUS.CODE (R21; 60_exceptions.md R86). -/
  code : BitVec 4
  /-- CTRL.IE (R22). -/
  ie : Bool
  /-- POS (R23). -/
  pos : Word
  /-- LEN (R24). -/
  len : Word
  /-- VAL (R25). -/
  val : DWord
  /-- ARG0 (R26). -/
  arg0 : Word
  /-- ARG1 (R26). -/
  arg1 : Word
  /-- IBUF (R30). -/
  ibuf : Memory
  /-- BUF (R31). -/
  buf : Memory
  /-- The level of the reset input (70_reset_and_hazards.md R101). -/
  inReset : Bool
  /-- The model's own: which draw of memory contents the unwritten bytes come from (log 3). -/
  memDraw : Nat
  /-- The model's own: how many free values have been drawn (log 7). -/
  draws : Nat
  /-- The model's own: the host's coming events, oldest first (log 6). -/
  host : List HostEvent
  /-- The model's own: whose move each of the coming steps is (log 5). -/
  turns : List Agent
  /-- The model's own: the data returned by the host's reads of this block, newest first (R16; log 6). -/
  reads : List Word
  deriving DecidableEq, Repr

/-- Why the machine stops. -/
inductive Fault where
  /-- Raised by RDBU alone, when `POS + n > 8 * LEN` and `params.overrun = .fault`: "a model shall treat the
  undefined case as a fault (`UncheckedOverrun`)" (40_bit_cursor.md R64). Safe: the model stops where the
  hardware goes on with any values. -/
  | uncheckedOverrun
  deriving DecidableEq, Repr

/-- Why an instruction has no meaning. -/
inductive Refusal where
  /-- Raised by an arm of `exec` whose instruction has no meaning yet; no arm is left. Safe. -/
  | notModelled (mnemonic : String)
  deriving DecidableEq, Repr

/-- The block with parameters `p` right after reset (10_state.md R33): every register 0, idle, interrupt
masked, memory contents unspecified (no byte listed), the reset input released, nothing coming from the
host. -/
def State.resetWith (p : Params) : State :=
  { params := p
    cmd := 0, busy := false, done := false, ovr := false, code := 0, ie := false
    pos := 0, len := 0, val := 0, arg0 := 0, arg1 := 0
    ibuf := [], buf := []
    inReset := false
    memDraw := 0, draws := 0, host := [], turns := [], reads := [] }

/-- The machine right after reset (R33), with the parameters of `Config.resetParams` (log 1). -/
def State.reset : State := State.resetWith Config.resetParams

end Sys2Proof.Machine
end

