-- ==== Sys2Proof/Machine/Flags.lean ====
section
/-! DEFINITION. The status side of the machine: result codes, the STATUS, CTRL and constant register words,
the IRQ output, completion and acceptance of a command, and `raise`, the block's one form of error
(60_exceptions.md R86 to R93; there is no trap and nothing to return from, R92). -/

namespace Sys2Proof.Machine

/-- The result codes the block produces (60_exceptions.md R86). -/
inductive ResultCode where
  | ok
  | insufficientBits
  | golombOverflow
  | illegalCommand
  | badRange
  deriving DecidableEq, Repr

/-- STATUS.CODE of a result (R86). -/
def ResultCode.toBits : ResultCode → BitVec 4
  | .ok => 0
  | .insufficientBits => 1
  | .golombOverflow => 2
  | .illegalCommand => 3
  | .badRange => 4

/-- STATUS.ERR, "always equal to `(CODE != 0)`" (10_state.md R21; log 13). -/
def State.err (s : State) : Bool := s.code != 0

/-- The IRQ output, `CTRL.IE AND STATUS.DONE` (R93); its routing is the platform's (log 14). -/
def State.irq (s : State) : Bool := s.ie && s.done

/-- The STATUS register as read: OVR at bit 8, CODE at 7:4, 0 at 3, ERR, DONE, BUSY at 2, 1, 0 (R21). -/
def State.statusWord (s : State) : Word :=
  (0 : BitVec 23) ++ BitVec.ofBool s.ovr ++ s.code ++ (0 : BitVec 1) ++ BitVec.ofBool s.err ++
    BitVec.ofBool s.done ++ BitVec.ofBool s.busy

/-- The CTRL register as read: IE at bit 0 (R22). -/
def State.ctrlWord (s : State) : Word := (0 : BitVec 31) ++ BitVec.ofBool s.ie

/-- The CONFIG register: VERSION = 0x07 at 15:8, KMAX at 5:0 (R27). -/
def configWord (p : Params) : Word :=
  (0 : BitVec 16) ++ (0x07 : BitVec 8) ++ (0 : BitVec 2) ++ BitVec.ofNat 6 p.kMax

/-- The completion of the command in flight with `code`: CODE (and so ERR), BUSY <- 0, DONE <- 1, all at
once with the commit writes already made in `s` (R89). -/
def State.complete (s : State) (code : BitVec 4) : State :=
  { s with code := code, busy := false, done := true }

/-- The completion of a successful command (00_scope.md R12, `commit`). -/
def State.completeOk (s : State) : State := s.complete ResultCode.ok.toBits

/-- `raise E`: the command ends without committing; only CODE and the completion (00_scope.md R12; R90). -/
def State.raise (s : State) (e : ResultCode) : Host.Outcome State Fault Refusal :=
  .next (s.complete e.toBits)

/-- The acceptance of the word `w` written to CMD with BUSY = 0: CMD <- w, BUSY <- 1, DONE <- 0; CODE and
OVR are not changed (R87). -/
def State.accept (s : State) (w : Word) : State :=
  { s with cmd := w, busy := true, done := false }

/-- A command is in flight: BUSY = 1, and reset is not asserted (R89, R101). -/
def State.inFlight (s : State) : Bool := s.busy && !s.inReset

end Sys2Proof.Machine
end

