-- ==== Sys2Proof/Machine/Ops.lean ====
section
/-! DEFINITION. The named operations over the byte memories and the registers that meanings and the host
port share: one byte of a memory, the draw of a free value, the commit of a cursor read. -/

namespace Sys2Proof.Machine

/-- The byte written last at `i`, if any was since the last reset. -/
def Memory.find : Memory → Nat → Option Byte
  | [], _ => none
  | (a, b) :: m, i => if a = i then some b else Memory.find m i

/-- `MemWrite(M, i, 1, b)` (00_scope.md R10), keeping the addresses strictly rising. -/
def Memory.write : Memory → Nat → Byte → Memory
  | [], i, b => [(i, b)]
  | (a, c) :: m, i, b =>
    if i < a then (i, b) :: (a, c) :: m
    else if i = a then (i, b) :: m
    else (a, c) :: Memory.write m i b

/-- `MemWrite(M, i + j, 1, bs[j])` for every `j` (42_emulation_prevention.md R79). -/
def Memory.writeAll : Memory → Nat → List Byte → Memory
  | m, _, [] => m
  | m, i, b :: bs => Memory.writeAll (m.write i b) (i + 1) bs

/-- The canonical form: addresses strictly rising. An unlisted address has no written value, so no entry
can equal one (log 3). -/
abbrev Memory.wf (m : Memory) : Prop := m.Pairwise (fun c d => c.1 < d.1)

/-- Every listed address is below the memory's size. -/
abbrev Memory.within (m : Memory) (size : Nat) : Prop := ∀ c ∈ m, c.1 < size

/-- `MemRead(IBUF, i, 1)` (R10). A byte not written since the last reset holds the value drawn at that
reset (10_state.md R33; U3). -/
def State.ibufByte (s : State) (i : Nat) : Byte :=
  match s.ibuf.find i with
  | some b => b
  | none => Config.freeIbufByte s.memDraw i

/-- `MemRead(BUF, i, 1)` (R10). A byte not written since the last reset holds the value drawn at that
reset (10_state.md R33; U3). -/
def State.bufByte (s : State) (i : Nat) : Byte :=
  match s.buf.find i with
  | some b => b
  | none => Config.freeBufByte s.memDraw i

/-- One free value has been drawn (93_implementation_defined.md: "fresh at each occurrence"). -/
def State.drawn (s : State) : State := { s with draws := s.draws + 1 }

/-- `commit(VAL <- v, POS <- p)` of a cursor read, and its completion (R12, 60_exceptions.md R89). In every
state of the invariant `p` fits 32 bits (log 15). -/
def State.commitRead (s : State) (v : DWord) (p : Nat) : State :=
  ({ s with val := v, pos := BitVec.ofNat 32 p } : State).completeOk

end Sys2Proof.Machine
end

