-- ==== Sys2Proof/Machine/Operands.lean ====
section
/-! DEFINITION. What the commands read: the bits of BUF from POS (00_scope.md R11) and EPF's source bytes
of IBUF (42_emulation_prevention.md R79). Conditions are on unbounded integers (R8). -/

namespace Sys2Proof.Machine

/-- `8 * LEN`, the number of bits the cursor's buffer holds (10_state.md R24). -/
def State.bitLen (s : State) : Nat := 8 * s.len.toNat

/-- `avail(n)`: `POS + n <= 8 * LEN`, no wrap (R11). -/
def State.avail (s : State) (n : Nat) : Bool := decide (s.pos.toNat + n ≤ s.bitLen)

/-- `BitAt(p)`: bit `7 - (p mod 8)` of BUF byte `p div 8` (R11). -/
def State.bitAt (s : State) (p : Nat) : Bool := (s.bufByte (p / 8)).getLsbD (7 - p % 8)

/-- `Bits(p, n)`: the `n` bits from `p` on, first bit first; empty when `n = 0` (R11). -/
def State.bits (s : State) : (p n : Nat) → List Bool
  | _, 0 => []
  | p, n + 1 => s.bitAt p :: s.bits (p + 1) n

/-- `uint(bits)`: a bit string as an unsigned binary number, first bit most significant (R9). -/
def uint (bs : List Bool) : Nat := bs.foldl (fun v b => 2 * v + b.toNat) 0

/-- `uint(Bits(p, n))`, the field `u(n)` at bit `p` (30_encoding.md R54). -/
def State.field (s : State) (p n : Nat) : Nat := uint (s.bits p n)

/-- `x[0..n-1]`, EPF's source: IBUF[ARG0 .. ARG0 + ARG1 - 1] (42_emulation_prevention.md R79). -/
def State.source (s : State) : List Byte :=
  (List.range s.arg1.toNat).map (fun i => s.ibufByte (s.arg0.toNat + i))

/-- The source range is inside IBUF: `ARG0 + ARG1 <= IBUF_BYTES`, no wrap (R80). -/
def State.sourceInRange (s : State) : Bool :=
  decide (s.arg0.toNat + s.arg1.toNat ≤ s.params.ibufBytes)

end Sys2Proof.Machine
end

