-- ==== Sys2Proof/Machine/BitCursor.lean ====
section
/-! DEFINITION. The bit cursor commands RDB, RDBU, RDF and HSP (40_bit_cursor.md). -/

namespace Sys2Proof.Machine

/-- The fixed-width read of `n` bits that RDB makes when it succeeds, and RDBU in its defined case: VAL is
the field zero-extended, POS moves past it (R62, R64). -/
def State.readFixed (s : State) (n : Nat) : State :=
  s.commitRead (BitVec.ofNat 64 (s.field s.pos.toNat n)) (s.pos.toNat + n)

/-- The undefined case of RDBU (R64; U1). Under `.fault` the model stops, as R64 prescribes. Under `.anyValue`
"the command completes; VAL, POS and STATUS.CODE take any values; LEN, ARG0, ARG1, CTRL, IBUF and BUF are
unchanged". -/
def State.uncheckedOverrun (s : State) : Host.Outcome State Fault Refusal :=
  match s.params.overrun with
  | .fault => .fault .uncheckedOverrun
  | .anyValue =>
    .next (({ s with val := Config.freeVal s.draws, pos := Config.freePos s.draws } : State).complete
      (Config.freeCode s.draws)).drawn

/-- RDB n (R62). -/
def execRdb (n : Nat) (s : State) : Host.Outcome State Fault Refusal :=
  if s.avail n then .next (s.readFixed n) else s.raise .insufficientBits

/-- RDBU n (R64). -/
def execRdbu (n : Nat) (s : State) : Host.Outcome State Fault Refusal :=
  if s.avail n then .next (s.readFixed n) else s.uncheckedOverrun

/-- RDF (R65). -/
def execRdf (s : State) : Host.Outcome State Fault Refusal :=
  if s.avail 1 then
    .next (s.commitRead (BitVec.ofNat 64 (s.bitAt s.pos.toNat).toNat) (s.pos.toNat + 1))
  else s.raise .insufficientBits

/-- HSP n (R66): a lack of space is a result, not an error. -/
def execHsp (n : Nat) (s : State) : Host.Outcome State Fault Refusal :=
  .next ({ s with val := if s.avail n then 1 else 0 } : State).completeOk

end Sys2Proof.Machine
end

