-- ==== Sys2Proof/Machine/ExpGolomb.lean ====
section
/-! DEFINITION. The Exp-Golomb commands RDUE and RDSE (41_exp_golomb.md). -/

namespace Sys2Proof.Machine

/-- What a scan of an Exp-Golomb code gives: `(v, p)` or an error (R70). -/
inductive UEResult where
  /-- The code's number (or, for the prefix alone, its zero count) and the bit position after it. -/
  | read (v p : Nat)
  | error (e : ResultCode)
  deriving DecidableEq, Repr

/-- The loop of `DecodeUE` (R70) at bit `p` with `k` zeros read and `room = K_MAX - k` more allowed: the
end of the buffer is tested first, then the bit, then the cap. Gives `k` and the position after the 1. -/
def State.scanPrefix (s : State) (p k : Nat) : (room : Nat) → UEResult
  | 0 =>
    if s.bitLen < p + 1 then .error .insufficientBits
    else if s.bitAt p then .read k (p + 1)
    else .error .golombOverflow
  | room + 1 =>
    if s.bitLen < p + 1 then .error .insufficientBits
    else if s.bitAt p then .read k (p + 1)
    else s.scanPrefix (p + 1) (k + 1) room

/-- `DecodeUE()` (R70): the prefix, then the `k`-bit suffix; `v = 2^k - 1 + s`. -/
def State.decodeUE (s : State) : UEResult :=
  match s.scanPrefix s.pos.toNat 0 s.params.kMax with
  | .error e => .error e
  | .read k p =>
    if s.bitLen < p + k then .error .insufficientBits
    else .read (2 ^ k - 1 + s.field p k) (p + k)

/-- The signed value of the unsigned value `v`: `(-1)^(v+1) * ceil(v/2)` (30_encoding.md R58, R73). -/
def signedOf (v : Nat) : Int := if v % 2 = 1 then ((v + 1) / 2 : Nat) else -((v / 2 : Nat) : Int)

/-- RDUE (R72). -/
def execRdue (s : State) : Host.Outcome State Fault Refusal :=
  match s.decodeUE with
  | .error e => s.raise e
  | .read v p => .next (s.commitRead (BitVec.ofNat 64 v) p)

/-- RDSE (R73): the value is written as 64-bit two's complement. -/
def execRdse (s : State) : Host.Outcome State Fault Refusal :=
  match s.decodeUE with
  | .error e => s.raise e
  | .read v p => .next (s.commitRead (BitVec.ofInt 64 (signedOf v)) p)

end Sys2Proof.Machine
end

