-- ==== Sys2Proof/Machine/Filter.lean ====
section
/-! DEFINITION. The emulation-prevention filter and the command EPF (42_emulation_prevention.md). -/

namespace Sys2Proof.Machine

/-- Input index `i` is removed: `i >= 2`, `x[i-2] = x[i-1] = 00` and `x[i] = 03`, in the raw input (R76). -/
def removedAt (x : List Byte) (i : Nat) : Bool :=
  decide (2 ≤ i) && (x[i - 2]? == some 0x00) && (x[i - 1]? == some 0x00) && (x[i]? == some 0x03)

/-- The filter function: `x` with the removed indices deleted, every other byte kept in order (R76). -/
def epfFilter (x : List Byte) : List Byte :=
  (x.zipIdx.filter (fun c => !removedAt x c.2)).map Prod.fst

/-- EPF (R79): the range check, then BUF[0..m-1] <- y, LEN <- m, POS <- 0; VAL and BUF[m..] are kept. -/
def execEpf (s : State) : Host.Outcome State Fault Refusal :=
  if s.sourceInRange then
    let y := epfFilter s.source
    .next ({ s with buf := s.buf.writeAll 0 y, len := BitVec.ofNat 32 y.length, pos := 0 } : State).completeOk
  else s.raise .badRange

end Sys2Proof.Machine
end

