-- ==== Sys2Proof/Machine/Dispatch.lean ====
section
/-! DEFINITION. One arm per command: what the sequencer does, in one step, with the command in flight
(20_memory.md R44). -/

namespace Sys2Proof.Machine

def exec (i : Instr) (s : State) : Host.Outcome State Fault Refusal :=
  match i with
  | .rdb n => Sys2Proof.Machine.execRdb n s
  | .rdbu n => Sys2Proof.Machine.execRdbu n s
  | .rdf => Sys2Proof.Machine.execRdf s
  | .rdue => Sys2Proof.Machine.execRdue s
  | .rdse => Sys2Proof.Machine.execRdse s
  | .hsp n => Sys2Proof.Machine.execHsp n s
  | .epf => Sys2Proof.Machine.execEpf s

end Sys2Proof.Machine
end

