-- ==== Sys2Proof/Machine/HostPort.lean ====
section
/-! DEFINITION. The host's side: the register map and the windows (10_state.md R19 to R31, 20_memory.md R34
to R43), what a read returns, what a write does, and the reset input (70_reset_and_hazards.md R101). -/

namespace Sys2Proof.Machine

/-- The registers of the map (10_state.md R19). -/
inductive Reg where
  | cmd | status | ctrl | pos | len | valLo | valHi | arg0 | arg1 | config | ibufSize | bufSize
  deriving DecidableEq, Repr

/-- The byte offset of a register (R19). -/
def Reg.offset : Reg → Nat
  | .cmd => 0x000
  | .status => 0x004
  | .ctrl => 0x008
  | .pos => 0x00C
  | .len => 0x010
  | .valLo => 0x014
  | .valHi => 0x018
  | .arg0 => 0x01C
  | .arg1 => 0x020
  | .config => 0x024
  | .ibufSize => 0x028
  | .bufSize => 0x02C

/-- What a host access reaches: a register, the four bytes of a window from byte index `i` (a multiple of
4), or a reserved offset. -/
inductive Target where
  | reg (r : Reg)
  | ibuf (i : Nat)
  | buf (i : Nat)
  | reserved
  deriving DecidableEq, Repr

/-- The register space by word: twelve registers, then reserved offsets (R19). -/
def regAt : Nat → Target
  | 0 => .reg .cmd
  | 1 => .reg .status
  | 2 => .reg .ctrl
  | 3 => .reg .pos
  | 4 => .reg .len
  | 5 => .reg .valLo
  | 6 => .reg .valHi
  | 7 => .reg .arg0
  | 8 => .reg .arg1
  | 9 => .reg .config
  | 10 => .reg .ibufSize
  | 11 => .reg .bufSize
  | _ => .reserved

/-- The target of an access at offset `off` from EGVLD_BASE: the aligned word there (20_memory.md R36), in
the map of R35. -/
def targetOf (off : Nat) : Target :=
  let a := off - off % 4
  if a < 0x10000 then regAt (a / 4)
  else if a < 0x20000 then .ibuf (a - 0x10000)
  else if a < 0x30000 then .buf (a - 0x20000)
  else .reserved

/-- A host address is in the block's window (R35). Any other access is none of this block's (log 9). -/
def State.selects (s : State) (addr : Nat) : Bool :=
  decide (s.params.base ≤ addr) && decide (addr < s.params.base + windowBytes)

/-- The word a window read returns: byte lanes little-endian, 0 at or beyond the memory's size (R38). -/
def windowWord (size : Nat) (byteAt : Nat → Byte) (i : Nat) : Word :=
  let lane (j : Nat) : Byte := if i + j < size then byteAt (i + j) else 0
  lane 3 ++ lane 2 ++ lane 1 ++ lane 0

/-- The current value of a register (R20 to R28). -/
def State.regValue (s : State) : Reg → Word
  | .cmd => s.cmd
  | .status => s.statusWord
  | .ctrl => s.ctrlWord
  | .pos => s.pos
  | .len => s.len
  | .valLo => s.val.extractLsb' 0 32
  | .valHi => s.val.extractLsb' 32 32
  | .arg0 => s.arg0
  | .arg1 => s.arg1
  | .config => configWord s.params
  | .ibufSize => BitVec.ofNat 32 s.params.ibufBytes
  | .bufSize => BitVec.ofNat 32 s.params.bufBytes

/-- The current value of any target: a register, the window's word, or 0 at a reserved offset (R29, R38). -/
def State.currentValue (s : State) : Target → Word
  | .reg r => s.regValue r
  | .ibuf i => windowWord s.params.ibufBytes s.ibufByte i
  | .buf i => windowWord s.params.bufBytes s.bufByte i
  | .reserved => 0

/-- The targets whose reads return any value while a command runs: POS, LEN, VAL and BUF (R43). -/
def Target.openWhileBusy : Target → Bool
  | .reg .pos => true
  | .reg .len => true
  | .reg .valLo => true
  | .reg .valHi => true
  | .buf _ => true
  | .reg .cmd => false
  | .reg .status => false
  | .reg .ctrl => false
  | .reg .arg0 => false
  | .reg .arg1 => false
  | .reg .config => false
  | .reg .ibufSize => false
  | .reg .bufSize => false
  | .ibuf _ => false
  | .reserved => false

/-- What a read returns; `none` is "any value": while reset is asserted (R101), and at an open target while
BUSY = 1 (R43). -/
def State.readValue (s : State) (t : Target) : Option Word :=
  if s.inReset || (s.busy && t.openWhileBusy) then none else some (s.currentValue t)

/-- A host read: it has no side effect on the block (R41); the host is given the value, or a fresh free
one. -/
def State.hostRead (s : State) (off : Nat) : State :=
  match s.readValue (targetOf off) with
  | some w => { s with reads := w :: s.reads }
  | none => { s.drawn with reads := Config.freeWord s.draws :: s.reads }

/-- A write that R42 drops while BUSY = 1, which changes nothing but OVR <- 1; performed otherwise. -/
def State.unlessBusy (s : State) (performed : State) : State :=
  if s.busy then { s with ovr := true } else performed

/-- The legalisation of a LEN write: `min(v, BUF_BYTES)` (R24). -/
def legalLen (p : Params) (v : Word) : Word := BitVec.ofNat 32 (min v.toNat p.bufBytes)

/-- A register write with all byte enables set (R19 to R28; R42 while BUSY = 1). -/
def State.writeReg (s : State) (r : Reg) (d : Word) : State :=
  match r with
  | .cmd => s.unlessBusy (s.accept d)
  | .status => { s with done := s.done && !d.getLsbD 1, ovr := s.ovr && !d.getLsbD 8 }
  | .ctrl => { s with ie := d.getLsbD 0 }
  | .pos => s.unlessBusy { s with pos := d }
  | .len => s.unlessBusy { s with len := legalLen s.params d }
  | .valLo => s
  | .valHi => s
  | .arg0 => s.unlessBusy { s with arg0 := d }
  | .arg1 => s.unlessBusy { s with arg1 := d }
  | .config => s
  | .ibufSize => s
  | .bufSize => s

/-- One byte lane `j` of a window write: `MemWrite(M, i + j, 1, d[8j+7:8j])` if BE[j] = 1 and the index is
below the memory's size (R38). -/
def writeLane (size i : Nat) (d : Word) (be : BitVec 4) (j : Nat) (m : Memory) : Memory :=
  if be.getLsbD j && decide (i + j < size) then m.write (i + j) (d.extractLsb' (8 * j) 8) else m

/-- A window write: its four lanes (R38). -/
def writeLanes (size i : Nat) (d : Word) (be : BitVec 4) (m : Memory) : Memory :=
  writeLane size i d be 3 (writeLane size i d be 2 (writeLane size i d be 1 (writeLane size i d be 0 m)))

/-- A write to a target: a register only with all four byte enables (R37), a window by its lanes unless a
command runs (R42; log 8), nothing at a reserved offset (R29). -/
def State.writeTarget (s : State) (t : Target) (d : Word) (be : BitVec 4) : State :=
  match t with
  | .reg r => if be = 0xF then s.writeReg r d else s
  | .ibuf i => s.unlessBusy { s with ibuf := writeLanes s.params.ibufBytes i d be s.ibuf }
  | .buf i => s.unlessBusy { s with buf := writeLanes s.params.bufBytes i d be s.buf }
  | .reserved => s

/-- A host write at offset `off`; ignored while reset is asserted (R101). -/
def State.hostWrite (s : State) (off : Nat) (d : Word) (be : BitVec 4) : State :=
  if s.inReset then s else s.writeTarget (targetOf off) d be

/-- One read of STATUS by `wait` (30_encoding.md R61), and the rest of the wait if it shows BUSY = 1. -/
def State.poll (s : State) : State :=
  let t := s.hostRead Reg.status.offset
  match t.reads with
  | w :: _ => if w.getLsbD 0 then { t with host := .wait :: t.host } else t
  | [] => t

/-- Reset is asserted: every register takes its reset value, a command in flight is abandoned, and the
contents of IBUF and BUF are drawn anew (R101, 10_state.md R33; log 3, log 11). -/
def State.assertReset (s : State) : State :=
  { State.resetWith s.params with
    inReset := true, memDraw := s.memDraw + 1, draws := s.draws
    host := s.host, turns := s.turns, reads := s.reads }

/-- Reset is released: the block is idle (R101; log 11). -/
def State.releaseReset (s : State) : State := { s with inReset := false }

/-- A host event, performed as one indivisible move (20_memory.md R36). -/
def State.hostEvent (s : State) : HostEvent → State
  | .read addr => if s.selects addr then s.hostRead (addr - s.params.base) else s
  | .write addr d be => if s.selects addr then s.hostWrite (addr - s.params.base) d be else s
  | .wait => s.poll
  | .assertReset => s.assertReset
  | .releaseReset => s.releaseReset

/-- The host's move: its next event, if one is left. -/
def State.hostMove (s : State) : State :=
  match s.host with
  | [] => s
  | e :: es => ({ s with host := es } : State).hostEvent e

end Sys2Proof.Machine
end

