-- ==== Sys2Proof/Machine/Sequencer.lean ====
section
/-! DEFINITION. The block sequencer and the choice of whose move it is (00_scope.md R15, 60_exceptions.md
R87 to R91). -/

namespace Sys2Proof.Machine

/-- The command in flight runs to its completion in one atomic step (20_memory.md R44; log 4): its meaning if the
latched word is legal, `raise ILLEGAL_COMMAND` if it is not (60_exceptions.md R88). -/
def State.runCommand (s : State) : Host.Outcome State Fault Refusal :=
  match decode s.cmd with
  | .legal i => exec i s
  | .illegal _ => s.raise .illegalCommand

/-- The sequencer's move: it completes the command in flight, or waits for one (R89). -/
def State.sequencerMove (s : State) : Host.Outcome State Fault Refusal :=
  if s.inFlight then s.runCommand else .next s

/-- Whose move it is: the head of `turns`; where that list says nothing, the sequencer's while a command is
in flight, else the host's (R91, R109: either order, and completion in the end; log 5). -/
def State.nextAgent (s : State) : Agent :=
  match s.turns with
  | a :: _ => a
  | [] => if s.inFlight then .sequencer else .host

/-- The state with the coming turn taken off the list. -/
def State.takeTurn (s : State) : State := { s with turns := s.turns.tail }

/-- One move of the machine. With nothing in flight and nothing coming from the host the block "is idle and
keeps all its state" (60_exceptions.md R100). -/
def State.move (s : State) : Host.Outcome State Fault Refusal :=
  match s.nextAgent with
  | .sequencer => s.takeTurn.sequencerMove
  | .host => .next s.takeTurn.hostMove

end Sys2Proof.Machine
end

