-- ==== Sys2Proof/Machine/Step.lean ====
section
/-! DEFINITION. One step of the machine, and how a command word is put where the next step runs it. -/

namespace Sys2Proof.Machine

/-- One step: one move of one agent (00_scope.md R15). -/
def step (s : State) : Host.Outcome State Fault Refusal := s.move

/-- `s` with the command word accepted (60_exceptions.md R87) and the sequencer next to move, the reset input
released: what the host's write to CMD does to an idle block (log 10). -/
def State.withFetchWord (s : State) (nbits w : Nat) : State :=
  { s.accept (tableWord nbits w) with inReset := false, turns := .sequencer :: s.turns }

end Sys2Proof.Machine
end

