-- ==== Sys2Proof/Machine/HostProgram.lean ====
section
/-! DEFINITION. Host programs in the notation of 30_encoding.md R61, each line expanded to the host events
it stands for (log 12). -/

namespace Sys2Proof.Machine

/-- One line of a host program (R61); the command lines `rdb n` .. `epf` are `command m`. -/
inductive HostLine where
  | wr (r : Reg) (v : Word)
  | rd (r : Reg)
  | ibuf (i : Nat) (bs : List Byte)
  | buf (i : Nat) (bs : List Byte)
  | wait
  | issue (m : Instr)
  | command (m : Instr)
  | rdu8
  | rdu16
  | rdu32
  | rdu64
  | skip (n : Nat)
  | seek (p : Word)
  | filter (off len : Word)
  | load (bs : List Byte)
  deriving DecidableEq, Repr

/-- `wr REG, value`: all byte enables set (R61). -/
def wrEvent (base : Nat) (r : Reg) (v : Word) : HostEvent := .write (base + r.offset) v 0xF

/-- The write of the one byte `b` at index `i` of the window at `window`, by its lane's byte enable (R38). From
index 0x10000 on the address lies beyond that window (log 17). -/
def byteEvent (base window i : Nat) (b : Byte) : HostEvent :=
  .write (base + window + i) (b.zeroExtend 32 <<< (8 * (i % 4))) (1 <<< (i % 4))

/-- `ibuf i: b0 b1 ...` and `buf i: b0 b1 ...`: host writes that store the bytes from index `i` on (R61). -/
def storeEvents (base window : Nat) : Nat → List Byte → List HostEvent
  | _, [] => []
  | i, b :: bs => byteEvent base window i b :: storeEvents base window (i + 1) bs

/-- `issue` of a command followed by `wait` (R61). A count beyond the field N is encoded modulo
2^16 (log 17). -/
def commandEvents (base : Nat) (m : Instr) : List HostEvent := [wrEvent base .cmd (encode m), .wait]

/-- The expansion of a line (R61). An operand outside its range, to which R61 gives no meaning, is expanded by the
same formula: a DESIGN CHOICE, unsafe (log 17). -/
def HostLine.expand (base : Nat) : HostLine → List HostEvent
  | .wr r v => [wrEvent base r v]
  | .rd r => [.read (base + r.offset)]
  | .ibuf i bs => storeEvents base 0x10000 i bs
  | .buf i bs => storeEvents base 0x20000 i bs
  | .wait => [.wait]
  | .issue m => [wrEvent base .cmd (encode m)]
  | .command m => commandEvents base m
  | .rdu8 => commandEvents base (.rdb 8)
  | .rdu16 => commandEvents base (.rdb 16)
  | .rdu32 => commandEvents base (.rdb 32)
  | .rdu64 => commandEvents base (.rdb 64)
  | .skip n => commandEvents base (.rdb n)
  | .seek p => [wrEvent base .pos p]
  | .filter off len => wrEvent base .arg0 off :: wrEvent base .arg1 len :: commandEvents base .epf
  | .load bs =>
    storeEvents base 0x20000 0 bs ++ [wrEvent base .len (BitVec.ofNat 32 bs.length), wrEvent base .pos 0]

/-- A host program's events. -/
def programEvents (base : Nat) (lines : List HostLine) : List HostEvent :=
  (lines.map (HostLine.expand base)).flatten

end Sys2Proof.Machine
end

