-- ==== Sys2Proof/Machine/Reference.lean ====
section
/-! DEFINITION. The spec's second forms, which obligations relate to the meanings: the bit-by-bit scan and
the byte-by-byte filter over the hidden state of 10_state.md R32, the closed form of 41_exp_golomb.md R71,
and the encoders of R74. -/

namespace Sys2Proof.Machine

/-- The hidden state of an Exp-Golomb scan: its position and leading-zero count (10_state.md R32). -/
structure ScanState where
  p : Nat
  k : Nat
  deriving DecidableEq, Repr

/-- One turn of the loop of 41_exp_golomb.md R70: the scan goes on, or it ends. -/
def State.scanStep (s : State) (h : ScanState) : ScanState ⊕ UEResult :=
  if s.bitLen < h.p + 1 then .inr (.error .insufficientBits)
  else if s.bitAt h.p then .inr (.read h.k (h.p + 1))
  else if s.params.kMax < h.k + 1 then .inr (.error .golombOverflow)
  else .inl ⟨h.p + 1, h.k + 1⟩

/-- At most `n` turns of the loop; `none` if it has not ended by then. -/
def State.scanRun (s : State) : (n : Nat) → ScanState → Option UEResult
  | 0, _ => none
  | n + 1, h =>
    match s.scanStep h with
    | .inl h' => s.scanRun n h'
    | .inr r => some r

/-- The closed form of `DecodeUE` (R71), by the remaining bits `R` and the zeros from POS. -/
def State.decodeUEClosed (s : State) : UEResult :=
  let r := s.bitLen - s.pos.toNat
  let rest := s.bits s.pos.toNat r
  let z := (rest.takeWhile (fun b => !b)).length
  if s.params.kMax + 1 ≤ r ∧ (rest.take (s.params.kMax + 1)).all (fun b => !b) then
    .error .golombOverflow
  else if rest.all (fun b => !b) then .error .insufficientBits
  else if r < 2 * z + 1 then .error .insufficientBits
  else .read (2 ^ z - 1 + s.field (s.pos.toNat + z + 1) z) (s.pos.toNat + 2 * z + 1)

/-- The hidden state of the filter: the zero-run count Z and the output so far (its length is the
destination index; the source index is how many bytes have been taken) (10_state.md R32). -/
structure FilterState where
  z : Nat
  out : List Byte
  deriving DecidableEq, Repr

/-- One byte of the streaming form (42_emulation_prevention.md R78). -/
def filterStep (h : FilterState) (b : Byte) : FilterState :=
  if h.z = 2 ∧ b = 0x03 then { h with z := 0 }
  else { z := if b = 0x00 then min (h.z + 1) 2 else 0, out := h.out ++ [b] }

/-- The hidden state after the bytes of `x` (R78). -/
def filterRun (x : List Byte) : FilterState := x.foldl filterStep ⟨0, []⟩

/-- The filter's streaming form (R78). -/
def epfStream (x : List Byte) : List Byte := (filterRun x).out

/-- `v` written with `n` bits, most significant first. -/
def natBits (n v : Nat) : List Bool := (List.range n).map (fun j => v.testBit (n - 1 - j))

/-- `EncUE(v)`: `k = floor(log2(v + 1))` zeros, a 1, and `v - (2^k - 1)` in `k` bits (30_encoding.md R56,
41_exp_golomb.md R74). -/
def encUE (v : Nat) : List Bool :=
  let k := (v + 1).log2
  List.replicate k false ++ true :: natBits k (v + 1 - 2 ^ k)

/-- `EncSE(x)`: `EncUE(2x - 1)` for `x > 0`, `EncUE(-2x)` for `x <= 0` (R74). -/
def encSE (x : Int) : List Bool := if 0 < x then encUE (2 * x - 1).toNat else encUE (-2 * x).toNat

/-- A sequence of commands, each run to its completion, with no host access between them. -/
def execAll : List Instr → State → Host.Outcome State Fault Refusal
  | [], s => .next s
  | i :: is, s =>
    match exec i s with
    | .next t => execAll is t
    | .fault f => .fault f
    | .refused r => .refused r

end Sys2Proof.Machine
end

