-- ==== Sys2Proof/Safety.lean ====
section
/-! DEFINITION. What every run keeps, and when a step is safe, in the terms the obligations use. -/

namespace Sys2Proof.Machine

/-- Every register of 10_state.md R33 holds its reset value and no command is in flight. -/
abbrev State.RegistersReset (s : State) : Prop :=
  s.cmd = 0 ∧ s.busy = false ∧ s.done = false ∧ s.ovr = false ∧ s.code = 0 ∧ s.ie = false ∧
    s.pos = 0 ∧ s.len = 0 ∧ s.val = 0 ∧ s.arg0 = 0 ∧ s.arg1 = 0

/-- The machine's invariant: legal parameters (R6, R35), LEN <= BUF_BYTES (R24), both memories in canonical
form and inside their sizes, DONE = 0 while BUSY = 1 (R21), no reserved result code where the fault treats
RDBU's undefined case (R86), and every register at its reset value while reset is asserted (R101). -/
abbrev State.Inv (s : State) : Prop :=
  s.params.Legal ∧
  s.len.toNat ≤ s.params.bufBytes ∧
  s.ibuf.wf ∧ s.ibuf.within s.params.ibufBytes ∧
  s.buf.wf ∧ s.buf.within s.params.bufBytes ∧
  (s.busy = true → s.done = false) ∧
  (s.params.overrun = .fault → s.code.toNat ≤ 4) ∧
  (s.inReset = true → s.RegistersReset)

/-- The coming step completes the command in flight (60_exceptions.md R89). -/
def State.Completes (s : State) : Prop := s.nextAgent = .sequencer ∧ s.inFlight = true

/-- The coming step is a host write of `d` with byte enables `be` that reaches the target `tg` of this block
(20_memory.md R35, R36), the reset input released. -/
def State.HostWrites (s : State) (tg : Target) (d : Word) (be : BitVec 4) : Prop :=
  s.nextAgent = .host ∧ s.inReset = false ∧ ∃ addr es, s.host = .write addr d be :: es ∧
    s.selects addr = true ∧ targetOf (addr - s.params.base) = tg

/-- The coming step asserts reset (70_reset_and_hazards.md R101). -/
def State.HostResets (s : State) : Prop := s.nextAgent = .host ∧ ∃ es, s.host = .assertReset :: es

/-- RDBU's obligation on the host (70_reset_and_hazards.md R106): if the command in flight is an unchecked
read, the space is there. -/
def State.Covered (s : State) : Prop := ∀ n, decode s.cmd = .legal (.rdbu n) → s.avail n = true

/-- The step from `s` is safe: it stops neither in a fault nor in a refusal. -/
def State.StepSafe (s : State) : Prop := ∃ t, step s = .next t

end Sys2Proof.Machine
end

