-- ==== Sys2Proof/Certificates/Slice0/Obligations.lean ====
section
/-! DEFINITION. The statements for the provers, in the order of the spec's files: encoding (30), the step,
the cursor (40), Exp-Golomb (41), the filter (42), errors and completion (60), registers and host port
(10, 20), reset and invariants (70). Each docstring cites the rules it formalises. In every statement
`{ s with code := c, busy := false, done := true }` is "nothing but STATUS.CODE, BUSY and DONE changed"
(ERR is a function of CODE), so the equation is the command's frame as well. -/

open Sys2Proof Sys2Proof.Machine

/-! ### Encoding -/

/-- R49, R52, R53: decoding the encoded command gives the command back, for every command and every operand
its encoding admits. -/
def Obligations.DecodeOfEncodeIsTheCommand : Prop :=
  ∀ i : Instr, i.wellFormed = true → decode (encode i) = .legal i

/-- R49, R52: a word the decoder takes is the encoding of the one well-formed command it gives, so no bit of
a legal word is dropped. -/
def Obligations.LegalWordIsTheEncoding : Prop :=
  ∀ (w : Word) (i : Instr), decode w = .legal i → i.wellFormed = true ∧ encode i = w

/-- R52: which words are legal; every other one completes with ILLEGAL_COMMAND (3) and changes nothing
else. -/
def Obligations.LegalWordsExactly : Prop :=
  (∀ w : Word, (∃ i, decode w = .legal i) ↔
    ((w.extractLsb' 28 4 = 0x1 ∨ w.extractLsb' 28 4 = 0x2) ∧ w.extractLsb' 16 12 = 0 ∧
      (w.extractLsb' 0 16).toNat ≤ 64) ∨
    ((w.extractLsb' 28 4 = 0x3 ∨ w.extractLsb' 28 4 = 0x4 ∨ w.extractLsb' 28 4 = 0x5 ∨
      w.extractLsb' 28 4 = 0x7) ∧ w.extractLsb' 0 28 = 0) ∨
    (w.extractLsb' 28 4 = 0x6 ∧ w.extractLsb' 16 12 = 0)) ∧
  (∀ s : State, (¬ ∃ i, decode s.cmd = .legal i) →
    s.runCommand = .next { s with code := 3, busy := false, done := true })

/-- R53: a row of the match and mask table selects exactly the words that decode to its mnemonic, and the
rule's example encodings. -/
def Obligations.MatchMaskTableAgrees : Prop :=
  (∀ (w : Word), ∀ r ∈ encodingRows,
    r.selects w = true ↔ ∃ i, decode w = .legal i ∧ i.mnemonic = r.mnemonic) ∧
  encode (.rdb 8) = 0x10000008 ∧ encode (.rdb 64) = 0x10000040 ∧ encode (.rdbu 32) = 0x20000020 ∧
  encode (.hsp 96) = 0x60000060 ∧ ¬ ∃ i, decode 0x10000041 = .legal i

/-- R49, R51: words written out from the encoding (OP, RSV, N) decode to the commands they stand for. -/
def Obligations.WrittenOutWordsDecode : Prop :=
  decode 0b00010000000000000000000000001101 = .legal (.rdb 13) ∧
  decode 0b00100000000000000000000001000000 = .legal (.rdbu 64) ∧
  decode 0b00110000000000000000000000000000 = .legal .rdf ∧
  decode 0b01000000000000000000000000000000 = .legal .rdue ∧
  decode 0b01010000000000000000000000000000 = .legal .rdse ∧
  decode 0b01100000000000001111111111111111 = .legal (.hsp 65535) ∧
  decode 0b01110000000000000000000000000000 = .legal .epf ∧
  decode 0 = .illegal .reservedOpcode

/-! ### The step -/

/-- R44, R89: a step of the sequencer with a command in flight is `exec` of the command that CMD decodes to,
on the state with the turn taken; and the command that `withFetchWord` places is what the next step runs. -/
def Obligations.StepRunsTheDecodedCommand : Prop :=
  (∀ (s : State) (i : Instr), s.inFlight = true → s.nextAgent = .sequencer → decode s.cmd = .legal i →
    step s = exec i s.takeTurn) ∧
  (∀ (s : State) (i : Instr), i.wellFormed = true →
    step (s.withFetchWord 32 (encode i).toNat) =
      exec i { s with cmd := encode i, busy := true, done := false, inReset := false })

/-! ### The bit cursor (40_bit_cursor.md) -/

/-- R62: RDB n. Its encoding; success exactly when `POS + n <= 8 * LEN`, with the value, the new position
(no wrap) and everything else kept; VAL_HI of a 64-bit read is the first 32 bits; failure; the example. -/
def Obligations.RdbReadsTheField : Prop :=
  (∀ n, n ≤ 64 → decode (0x10000000 + BitVec.ofNat 32 n) = .legal (.rdb n)) ∧
  (∀ s : State, s.Inv → ∀ n, n ≤ 64 →
    (s.pos.toNat + n ≤ 8 * s.len.toNat →
      ∃ t, exec (.rdb n) s = .next t ∧
        t = { s with val := t.val, pos := t.pos, code := 0, busy := false, done := true } ∧
        t.val.toNat = uint (s.bits s.pos.toNat n) ∧ t.pos.toNat = s.pos.toNat + n ∧
        (n = 64 → (t.val.extractLsb' 32 32).toNat = uint (s.bits s.pos.toNat 32))) ∧
    (8 * s.len.toNat < s.pos.toNat + n →
      exec (.rdb n) s = .next { s with code := 1, busy := false, done := true })) ∧
  (∀ s : State, s.bufByte 0 = 0xA6 → s.bufByte 1 = 0x40 → s.len = 2 → s.pos = 0 →
    exec (.rdb 3) s = .next { s with val := 5, pos := 3, code := 0, busy := false, done := true })

/-- R63: a successful RDB n leaves a VAL whose bits above n are 0 and whose low n bits, written MSB first, are
the bits of BUF from POS on, bit by bit and as a re-encoding with n bits. -/
def Obligations.RdbReencodesToTheSameBits : Prop :=
  ∀ (s : State) (n : Nat), n ≤ 64 → s.pos.toNat + n ≤ 8 * s.len.toNat →
    ∃ t, exec (.rdb n) s = .next t ∧
      (∀ j, n ≤ j → t.val.getLsbD j = false) ∧
      (∀ j, j < n → t.val.getLsbD (n - 1 - j) =
        (s.bufByte ((s.pos.toNat + j) / 8)).getLsbD (7 - (s.pos.toNat + j) % 8)) ∧
      natBits n t.val.toNat = s.bits s.pos.toNat n

/-- R64: RDBU n. Its encoding; the defined case, identical to RDB n; the undefined case, reached exactly when
`POS + n > 8 * LEN`, as the model treatment says (the fault) and as the pseudocode says (any VAL, POS and
CODE, the rest unchanged), by the model's parameter `overrun` (log 2); the example. -/
def Obligations.RdbuReadsOrIsUndefined : Prop :=
  (∀ n, n ≤ 64 → decode (0x20000000 + BitVec.ofNat 32 n) = .legal (.rdbu n)) ∧
  (∀ s : State, s.Inv → ∀ n, n ≤ 64 →
    (s.pos.toNat + n ≤ 8 * s.len.toNat →
      exec (.rdbu n) s = exec (.rdb n) s ∧
      ∃ t, exec (.rdbu n) s = .next t ∧
        t = { s with val := t.val, pos := t.pos, code := 0, busy := false, done := true } ∧
        t.val.toNat = uint (s.bits s.pos.toNat n) ∧ t.pos.toNat = s.pos.toNat + n) ∧
    (8 * s.len.toNat < s.pos.toNat + n →
      (s.params.overrun = .fault → exec (.rdbu n) s = .fault .uncheckedOverrun) ∧
      (s.params.overrun = .anyValue → ∃ t, exec (.rdbu n) s = .next t ∧
        t = { s with val := t.val, pos := t.pos, code := t.code, busy := false, done := true,
                     draws := t.draws }))) ∧
  (∀ s : State, s.bufByte 0 = 0xF0 → s.len = 1 →
    (s.pos = 2 → exec (.rdbu 4) s =
      .next { s with val := 0xC, pos := 6, code := 0, busy := false, done := true }) ∧
    (s.pos = 6 → s.params.overrun = .fault → exec (.rdbu 4) s = .fault .uncheckedOverrun))

/-- R65: RDF. Its encoding; the flag; equal to RDB 1; failure exactly when `POS >= 8 * LEN`; the example. -/
def Obligations.RdfReadsTheFlag : Prop :=
  decode 0x30000000 = .legal .rdf ∧
  (∀ s : State, s.Inv →
    exec .rdf s = exec (.rdb 1) s ∧
    (s.pos.toNat < 8 * s.len.toNat →
      ∃ t, exec .rdf s = .next t ∧
        t = { s with val := if s.bitAt s.pos.toNat then 1 else 0, pos := t.pos, code := 0,
                     busy := false, done := true } ∧
        t.pos.toNat = s.pos.toNat + 1) ∧
    (8 * s.len.toNat ≤ s.pos.toNat →
      exec .rdf s = .next { s with code := 1, busy := false, done := true })) ∧
  (∀ s : State, s.bufByte 0 = 0x80 → s.len = 1 →
    (s.pos = 0 → exec .rdf s = .next { s with val := 1, pos := 1, code := 0, busy := false, done := true }) ∧
    (s.pos = 1 → exec .rdf s = .next { s with val := 0, pos := 2, code := 0, busy := false, done := true }))

/-- R66: HSP n. Its encoding for every 16-bit n; VAL is 1 or 0, POS is not written, it never fails, and BUF's
contents never matter; the example. -/
def Obligations.HspReportsSpace : Prop :=
  (∀ n, n ≤ 65535 → decode (0x60000000 + BitVec.ofNat 32 n) = .legal (.hsp n)) ∧
  (∀ (s : State) (n : Nat), n ≤ 65535 →
    exec (.hsp n) s = .next { s with val := if s.pos.toNat + n ≤ 8 * s.len.toNat then 1 else 0,
                                     code := 0, busy := false, done := true }) ∧
  (∀ (s : State) (n : Nat) (m : Memory), n ≤ 65535 → ∃ t u, exec (.hsp n) s = .next t ∧
    exec (.hsp n) { s with buf := m } = .next u ∧ u.val = t.val) ∧
  (∀ s : State, s.len = 2 → s.pos = 12 →
    exec (.hsp 4) s = .next { s with val := 1, code := 0, busy := false, done := true } ∧
    exec (.hsp 5) s = .next { s with val := 0, code := 0, busy := false, done := true })

/-- R67: after HSP n has returned 1, a sequence of RDBU commands whose counts sum to at most n runs to its end
and does what the RDB commands with the same counts do. -/
def Obligations.HspGuardsUncheckedReads : Prop :=
  ∀ (s t : State) (n : Nat) (ns : List Nat), s.Inv → n ≤ 65535 → (∀ m ∈ ns, m ≤ 64) → ns.sum ≤ n →
    exec (.hsp n) s = .next t → t.val = 1 →
    ∃ u, execAll (ns.map Instr.rdbu) t = .next u ∧ execAll (ns.map Instr.rdb) t = .next u ∧
      u.pos.toNat = s.pos.toNat + ns.sum

/-- R68: RDB, RDBU and RDF read at most n bits of BUF (RDF one) and HSP none: two states that agree on those
bits and on everything but BUF give the same result, and each command completes. (RDBU in its defined
case.) -/
def Obligations.CursorReadsOnlyItsBits : Prop :=
  ∀ (s : State) (m : Memory) (n : Nat), n ≤ 64 →
    (∀ j, j < n → s.bitAt (s.pos.toNat + j) = ({ s with buf := m } : State).bitAt (s.pos.toNat + j)) →
    (∃ t, exec (.rdb n) s = .next t ∧ exec (.rdb n) { s with buf := m } = .next { t with buf := m }) ∧
    (s.avail n = true → ∃ t, exec (.rdbu n) s = .next t ∧
      exec (.rdbu n) { s with buf := m } = .next { t with buf := m }) ∧
    (n = 1 → ∃ t, exec .rdf s = .next t ∧ exec .rdf { s with buf := m } = .next { t with buf := m }) ∧
    (n = 0 → ∀ k, ∃ t, exec (.hsp k) s = .next t ∧
      exec (.hsp k) { s with buf := m } = .next { t with buf := m })

/-- R31, R102: the cursor commands read "only the bytes below LEN": what BUF holds at or above LEN, and
anything IBUF holds, never reaches a result. (RDBU in its defined case.) -/
def Obligations.CursorReadsOnlyBelowLen : Prop :=
  ∀ (s : State) (m m' : Memory) (i : Instr), i ≠ .epf → (∀ n, i = .rdbu n → s.avail n = true) →
    (∀ a, a < s.len.toNat → s.bufByte a = ({ s with buf := m, ibuf := m' } : State).bufByte a) →
    ∃ t, exec i s = .next t ∧
      exec i { s with buf := m, ibuf := m' } = .next { t with buf := m, ibuf := m' }

/-- R39: byte `i` is the 8-bit field at bit `8i`, bit 7 first; a field is its first bits shifted up by the
rest, so one that straddles a boundary takes its high bits from the lower-indexed byte; the example. -/
def Obligations.BitstreamIsMsbFirst : Prop :=
  (∀ (s : State) (i : Nat), s.field (8 * i) 8 = (s.bufByte i).toNat) ∧
  (∀ (s : State) (i j : Nat), j < 8 → s.bitAt (8 * i + j) = (s.bufByte i).getLsbD (7 - j)) ∧
  (∀ (s : State) (p a b : Nat), s.field p (a + b) = s.field p a * 2 ^ b + s.field (p + a) b) ∧
  (∀ s : State, s.bufByte 0 = 0x12 → s.bufByte 1 = 0x34 → s.len = 2 → s.pos = 4 →
    exec (.rdb 8) s = .next { s with val := 0x23, pos := 12, code := 0, busy := false, done := true })

/-! ### Exp-Golomb (41_exp_golomb.md) -/

/-- R56: the code of `2^k - 1 + uint(s)` is k zeros, a 1 and s; its length is 2k + 1; the numbers with k zeros
are exactly `2^k - 1` to `2^(k+1) - 2`; no two numbers share a code, and no code begins another; the block
decodes only codes with k <= K_MAX, so under K_MAX = 31 numbers up to 2^32 - 2, that one included. -/
def Obligations.ExpGolombCodesAreUnique : Prop :=
  (∀ bs : List Bool, encUE (2 ^ bs.length - 1 + uint bs) = List.replicate bs.length false ++ true :: bs) ∧
  (∀ v, (encUE v).length = 2 * (v + 1).log2 + 1) ∧
  (∀ k v, (v + 1).log2 = k ↔ 2 ^ k - 1 ≤ v ∧ v ≤ 2 ^ (k + 1) - 2) ∧
  (∀ v w, encUE v <+: encUE w → v = w) ∧
  (∀ (s : State) (v p : Nat), s.decodeUE = .read v p → (v + 1).log2 ≤ s.params.kMax ∧
    (s.params.kMax = 31 → v ≤ 2 ^ 32 - 2)) ∧
  (∃ s : State, s.params.kMax = 31 ∧ ∃ p, s.decodeUE = .read (2 ^ 32 - 2) p)

/-- R58: the signed mapping is `(-1)^(v+1) * ceil(v/2)`, odd and even by cases; it is a bijection with the
inverse the rule gives; and its range on the codes of K_MAX = 31. -/
def Obligations.SignedMappingIsBijective : Prop :=
  (∀ v : Nat, signedOf v = (-1) ^ (v + 1) * (((v + 1) / 2 : Nat) : Int)) ∧
  (∀ v : Nat, v % 2 = 1 → signedOf v = ((v + 1) / 2 : Nat)) ∧
  (∀ v : Nat, v % 2 = 0 → signedOf v = -((v / 2 : Nat) : Int)) ∧
  Function.Bijective signedOf ∧
  (∀ x : Int, signedOf (if 0 < x then 2 * x - 1 else -2 * x).toNat = x) ∧
  (∀ v : Nat, v ≤ 2 ^ 32 - 2 → -(2 ^ 31 - 1) ≤ signedOf v ∧ signedOf v ≤ 2 ^ 31 - 1) ∧
  signedOf (2 ^ 32 - 2) = -(2 ^ 31 - 1) ∧ signedOf (2 ^ 32 - 3) = 2 ^ 31 - 1

/-- R70, R75: the loop over the hidden scan state, one bit a turn, ends within K_MAX + 1 turns with what
`DecodeUE`'s prefix scan gives. -/
def Obligations.BitByBitScanEndsWithThePrefix : Prop :=
  ∀ s : State, s.scanRun (s.params.kMax + 1) ⟨s.pos.toNat, 0⟩ =
    some (s.scanPrefix s.pos.toNat 0 s.params.kMax)

/-- R71: the closed form of `DecodeUE`, equivalent to R70. -/
def Obligations.DecodeUEClosedFormAgrees : Prop := ∀ s : State, s.decodeUE = s.decodeUEClosed

/-- R72: RDUE. Its encoding; success on k <= K_MAX zeros, a 1 and k more bits inside the buffer; the
truncated prefix, the truncated suffix and the K_MAX + 1 zeros, each changing only STATUS; the example. -/
def Obligations.RdueReadsTheCode : Prop :=
  decode 0x40000000 = .legal .rdue ∧
  (∀ s : State, s.Inv →
    (∀ k, k ≤ s.params.kMax → (∀ j, j < k → s.bitAt (s.pos.toNat + j) = false) →
      s.bitAt (s.pos.toNat + k) = true → s.pos.toNat + k + 1 ≤ 8 * s.len.toNat →
      (s.pos.toNat + 2 * k + 1 ≤ 8 * s.len.toNat →
        ∃ t, exec .rdue s = .next t ∧
          t = { s with val := t.val, pos := t.pos, code := 0, busy := false, done := true } ∧
          t.val.toNat = 2 ^ k - 1 + uint (s.bits (s.pos.toNat + k + 1) k) ∧
          t.pos.toNat = s.pos.toNat + 2 * k + 1) ∧
      (8 * s.len.toNat < s.pos.toNat + 2 * k + 1 →
        exec .rdue s = .next { s with code := 1, busy := false, done := true })) ∧
    (8 * s.len.toNat < s.pos.toNat + s.params.kMax + 1 →
      (∀ p, s.pos.toNat ≤ p → p < 8 * s.len.toNat → s.bitAt p = false) →
      exec .rdue s = .next { s with code := 1, busy := false, done := true }) ∧
    (s.pos.toNat + s.params.kMax + 1 ≤ 8 * s.len.toNat →
      (∀ j, j ≤ s.params.kMax → s.bitAt (s.pos.toNat + j) = false) →
      exec .rdue s = .next { s with code := 2, busy := false, done := true })) ∧
  (∀ s : State, s.bufByte 0 = 0xA6 → s.bufByte 1 = 0x40 → s.len = 2 → s.params.kMax = 31 →
    (s.pos = 0 → exec .rdue s = .next { s with val := 0, pos := 1, code := 0, busy := false, done := true }) ∧
    (s.pos = 1 → exec .rdue s = .next { s with val := 1, pos := 4, code := 0, busy := false, done := true }) ∧
    (s.pos = 4 → exec .rdue s = .next { s with val := 2, pos := 7, code := 0, busy := false, done := true }) ∧
    (s.pos = 7 → exec .rdue s = .next { s with val := 3, pos := 12, code := 0, busy := false, done := true }) ∧
    (s.pos = 12 → exec .rdue s = .next { s with code := 1, busy := false, done := true }))

/-- R73: RDSE. Its encoding; the signed value of what `DecodeUE` gives, as 64-bit two's complement that never
overflows, and the position; exactly RDUE's errors; the example. -/
def Obligations.RdseReadsTheSignedCode : Prop :=
  decode 0x50000000 = .legal .rdse ∧
  (∀ s : State, s.Inv →
    (∀ v p, s.decodeUE = .read v p →
      ∃ t, exec .rdse s = .next t ∧
        t = { s with val := t.val, pos := t.pos, code := 0, busy := false, done := true } ∧
        (v % 2 = 1 → t.val.toInt = ((v + 1) / 2 : Nat)) ∧
        (v % 2 = 0 → t.val.toInt = -((v / 2 : Nat) : Int)) ∧
        t.val.toInt.natAbs ≤ 2 ^ s.params.kMax - 1 ∧
        t.pos.toNat = p) ∧
    (∀ e, s.decodeUE = .error e → (e = .insufficientBits ∨ e = .golombOverflow) ∧
      exec .rdse s = .next { s with code := e.toBits, busy := false, done := true } ∧
      exec .rdue s = exec .rdse s)) ∧
  (∀ s : State, s.bufByte 0 = 0xA6 → s.bufByte 1 = 0x40 → s.len = 2 → s.params.kMax = 31 →
    (s.pos = 0 → exec .rdse s = .next { s with val := 0, pos := 1, code := 0, busy := false, done := true }) ∧
    (s.pos = 1 → exec .rdse s = .next { s with val := 1, pos := 4, code := 0, busy := false, done := true }) ∧
    (s.pos = 4 → exec .rdse s =
      .next { s with val := 0xFFFFFFFFFFFFFFFF, pos := 7, code := 0, busy := false, done := true }) ∧
    (s.pos = 7 → exec .rdse s = .next { s with val := 2, pos := 12, code := 0, busy := false, done := true }))

/-- R74: if the bits from POS are `EncUE(v)` with `k = floor(log2(v + 1)) <= K_MAX`, inside the buffer, RDUE
returns v and advances POS by 2k + 1, and RDSE returns the x with `EncSE(x) = EncUE(v)`; under K_MAX = 31
every v up to 2^32 - 2 qualifies. -/
def Obligations.ExpGolombRoundTrips : Prop :=
  (∀ (s : State) (v : Nat), s.Inv → (v + 1).log2 ≤ s.params.kMax →
    s.pos.toNat + 2 * (v + 1).log2 + 1 ≤ 8 * s.len.toNat →
    s.bits s.pos.toNat (2 * (v + 1).log2 + 1) = encUE v →
    (∃ t, exec .rdue s = .next t ∧ t.code = 0 ∧ t.val.toNat = v ∧
      t.pos.toNat = s.pos.toNat + 2 * (v + 1).log2 + 1) ∧
    (∀ x : Int, encSE x = encUE v → ∃ t, exec .rdse s = .next t ∧ t.code = 0 ∧ t.val.toInt = x ∧
      t.pos.toNat = s.pos.toNat + 2 * (v + 1).log2 + 1)) ∧
  (∀ v : Nat, v ≤ 2 ^ 32 - 2 → (v + 1).log2 ≤ 31)

/-- R75: RDUE and RDSE read at most 2 * K_MAX + 1 bits: two states that agree on those bits and on everything
but BUF give the same result, and each command completes. -/
def Obligations.ExpGolombReadsBoundedBits : Prop :=
  ∀ (s : State) (m : Memory),
    (∀ j, j < 2 * s.params.kMax + 1 →
      s.bitAt (s.pos.toNat + j) = ({ s with buf := m } : State).bitAt (s.pos.toNat + j)) →
    (s.Inv → 2 * s.params.kMax + 1 ≤ 127) ∧
    (∃ t, exec .rdue s = .next t ∧ exec .rdue { s with buf := m } = .next { t with buf := m }) ∧
    (∃ t, exec .rdse s = .next t ∧ exec .rdse { s with buf := m } = .next { t with buf := m })

/-! ### The emulation-prevention filter (42_emulation_prevention.md) -/

/-- R76: the output is the input with exactly the indices `i >= 2` deleted where `x[i-2] = x[i-1] = 00` and
`x[i] = 03`; the rest in its order; what follows an index never matters to it. -/
def Obligations.FilterDeletesExactlyTheMarkers : Prop :=
  (∀ x : List Byte, epfFilter x = (List.range x.length).filterMap (fun i =>
    if 2 ≤ i ∧ x[i - 2]? = some 0x00 ∧ x[i - 1]? = some 0x00 ∧ x[i]? = some 0x03 then none else x[i]?)) ∧
  (∀ x : List Byte, (epfFilter x).length =
    x.length - ((List.range x.length).filter (fun i => removedAt x i)).length) ∧
  (∀ x y : List Byte, epfFilter x <+: epfFilter (x ++ y))

/-- R77: a removed byte is never one of the two zeros of another match; the rule's four consequences. -/
def Obligations.RemovedBytesNeverOverlap : Prop :=
  (∀ (x : List Byte) (i j : Nat), removedAt x i = true → removedAt x j = true → i ≠ j - 1 ∧ i ≠ j - 2) ∧
  epfFilter [0x00, 0x00, 0x00, 0x03] = [0x00, 0x00, 0x00] ∧
  epfFilter [0x00, 0x00, 0x03, 0x00, 0x00, 0x03] = [0x00, 0x00, 0x00, 0x00] ∧
  epfFilter [0x00, 0x00, 0x03, 0x03] = [0x00, 0x00, 0x03] ∧
  epfFilter [0x00, 0x00, 0x03, 0x00, 0x03] = [0x00, 0x00, 0x00, 0x03]

/-- R78: the streaming form over the hidden state gives the filter of R76, and at each step Z is the number
of `00` bytes just before, capped at 2. -/
def Obligations.StreamingFilterAgrees : Prop :=
  (∀ x : List Byte, epfStream x = epfFilter x) ∧
  (∀ (x : List Byte) (i : Nat), i ≤ x.length → (filterRun (x.take i)).z =
    min 2 ((x.take i).reverse.takeWhile (fun b => b == 0x00)).length)

/-- R79, R80: EPF. Its encoding; the source bytes; success exactly when `ARG0 + ARG1 <= IBUF_BYTES` (an empty
range at the end of IBUF is legal): BUF[0..m-1] = y, every other byte of BUF and all of IBUF as before,
LEN = m, POS = 0, VAL and the rest kept; BAD_RANGE otherwise; no match, no change; the example. -/
def Obligations.EpfFiltersIntoBuf : Prop :=
  decode 0x70000000 = .legal .epf ∧
  (∀ s : State, s.source.length = s.arg1.toNat ∧
    ∀ i, i < s.arg1.toNat → s.source[i]? = some (s.ibufByte (s.arg0.toNat + i))) ∧
  (∀ x : List Byte, (∀ i, removedAt x i = false) → epfFilter x = x) ∧
  (∀ s : State, s.Inv →
    (s.arg0.toNat + s.arg1.toNat ≤ s.params.ibufBytes →
      ∃ t, exec .epf s = .next t ∧
        t = { s with buf := t.buf, len := t.len, pos := 0, code := 0, busy := false, done := true } ∧
        t.len.toNat = (epfFilter s.source).length ∧
        (∀ j, j < (epfFilter s.source).length → (epfFilter s.source)[j]? = some (t.bufByte j)) ∧
        (∀ j, (epfFilter s.source).length ≤ j → t.bufByte j = s.bufByte j) ∧
        (∀ a, t.ibufByte a = s.ibufByte a)) ∧
    (s.params.ibufBytes < s.arg0.toNat + s.arg1.toNat →
      exec .epf s = .next { s with code := 4, busy := false, done := true }) ∧
    (s.arg1 = 0 → s.arg0.toNat = s.params.ibufBytes →
      exec .epf s = .next { s with len := 0, pos := 0, code := 0, busy := false, done := true })) ∧
  (∀ s : State, s.Inv → 7 ≤ s.params.ibufBytes → s.arg0 = 0 → s.arg1 = 7 →
    (List.range 7).map s.ibufByte = [0x01, 0x60, 0x00, 0x00, 0x03, 0x00, 0x90] →
    ∃ t, exec .epf s = .next t ∧ t.len = 6 ∧ t.pos = 0 ∧
      (List.range 6).map t.bufByte = [0x01, 0x60, 0x00, 0x00, 0x00, 0x90])

/-- R81: the output always fits: `m <= n = ARG1 <= IBUF_BYTES <= BUF_BYTES`, afterwards `LEN = m <= BUF_BYTES`,
and the output index never runs ahead of the input index. -/
def Obligations.EpfOutputFits : Prop :=
  (∀ x : List Byte, (epfFilter x).length ≤ x.length) ∧
  (∀ (x : List Byte) (i : Nat), i ≤ x.length → (filterRun (x.take i)).out.length ≤ i) ∧
  (∀ s : State, s.Inv → s.arg0.toNat + s.arg1.toNat ≤ s.params.ibufBytes →
    (epfFilter s.source).length ≤ s.arg1.toNat ∧ s.arg1.toNat ≤ s.params.ibufBytes ∧
    s.params.ibufBytes ≤ s.params.bufBytes ∧
    ∃ t, exec .epf s = .next t ∧ t.len.toNat = (epfFilter s.source).length ∧
      t.len.toNat ≤ t.params.bufBytes)

/-- R83: the filter is not idempotent, by the rule's example. -/
def Obligations.FilteringTwiceCorrupts : Prop :=
  epfFilter [0x00, 0x00, 0x03, 0x03] = [0x00, 0x00, 0x03] ∧
  epfFilter (epfFilter [0x00, 0x00, 0x03, 0x03]) = [0x00, 0x00]

/-! ### Errors and completion (60_exceptions.md) -/

/-- R86: the code each command completes with, and its cause; codes 5 to 15 are never produced, and a failing
command's word is still in CMD and its starting position in POS, but for the undefined case of RDBU, which
leaves CODE any value or, in the treatment the rule names, is a fault. -/
def Obligations.EachCommandRaisesOnlyItsCodes : Prop :=
  (∀ s t : State, s.runCommand = .next t →
    (∀ why, decode s.cmd = .illegal why → t.code = 3) ∧
    (∀ n, decode s.cmd = .legal (.rdb n) →
      t.code = if 8 * s.len.toNat < s.pos.toNat + n then 1 else 0) ∧
    (∀ n, decode s.cmd = .legal (.rdbu n) → s.pos.toNat + n ≤ 8 * s.len.toNat → t.code = 0) ∧
    (decode s.cmd = .legal .rdf → t.code = if 8 * s.len.toNat < s.pos.toNat + 1 then 1 else 0) ∧
    (∀ n, decode s.cmd = .legal (.hsp n) → t.code = 0) ∧
    ((decode s.cmd = .legal .rdue ∨ decode s.cmd = .legal .rdse) →
      (t.code = 0 ∨ t.code = 1 ∨ t.code = 2) ∧
      (t.code = 1 ↔ s.decodeUE = .error .insufficientBits) ∧
      (t.code = 2 ↔ s.pos.toNat + s.params.kMax + 1 ≤ 8 * s.len.toNat ∧
        ∀ j, j ≤ s.params.kMax → s.bitAt (s.pos.toNat + j) = false)) ∧
    (decode s.cmd = .legal .epf →
      t.code = if s.params.ibufBytes < s.arg0.toNat + s.arg1.toNat then 4 else 0) ∧
    (s.Covered → t.code.toNat ≤ 4 ∧ (t.code ≠ 0 → t.cmd = s.cmd ∧ t.pos = s.pos))) ∧
  (∀ (s : State) (n : Nat), decode s.cmd = .legal (.rdbu n) → 8 * s.len.toNat < s.pos.toNat + n →
    (s.params.overrun = .fault → s.runCommand = .fault .uncheckedOverrun) ∧
    (s.params.overrun = .anyValue →
      ∃ t, s.runCommand = .next t ∧ t.code = Config.freeCode s.draws))

/-- R87: acceptance sets CMD, BUSY and DONE and nothing else; and the command's inputs are latched: until its
completion or a reset, no host event changes CMD, POS, LEN, VAL, ARG0, ARG1, CODE or any byte of IBUF or
BUF. -/
def Obligations.AcceptanceLatchesTheInputs : Prop :=
  (∀ (s : State) (w : Word), s.inReset = false → s.busy = false → s.selects s.params.base = true →
    s.hostEvent (.write s.params.base w 0xF) = { s with cmd := w, busy := true, done := false }) ∧
  (∀ (s : State) (e : HostEvent), s.inFlight = true → e ≠ .assertReset →
    (s.hostEvent e).inFlight = true ∧ (s.hostEvent e).cmd = s.cmd ∧ (s.hostEvent e).pos = s.pos ∧
    (s.hostEvent e).len = s.len ∧ (s.hostEvent e).val = s.val ∧ (s.hostEvent e).arg0 = s.arg0 ∧
    (s.hostEvent e).arg1 = s.arg1 ∧ (s.hostEvent e).code = s.code ∧
    (s.hostEvent e).params = s.params ∧ (∀ a, (s.hostEvent e).ibufByte a = s.ibufByte a) ∧
    (∀ a, (s.hostEvent e).bufByte a = s.bufByte a))

/-- R88: each kind of illegal word completes with ILLEGAL_COMMAND and changes nothing but STATUS, whatever
else would have failed too (R91: an RDB with N = 65 on an empty buffer is illegal, not short). -/
def Obligations.IllegalWordsCompleteAsIllegal : Prop :=
  (∀ s : State,
    (s.cmd.extractLsb' 28 4 = 0x0 ∨ 0x8 ≤ (s.cmd.extractLsb' 28 4).toNat ∨ s.cmd.extractLsb' 16 12 ≠ 0 ∨
     ((s.cmd.extractLsb' 28 4 = 0x1 ∨ s.cmd.extractLsb' 28 4 = 0x2) ∧
       64 < (s.cmd.extractLsb' 0 16).toNat) ∨
     ((s.cmd.extractLsb' 28 4 = 0x3 ∨ s.cmd.extractLsb' 28 4 = 0x4 ∨ s.cmd.extractLsb' 28 4 = 0x5 ∨
       s.cmd.extractLsb' 28 4 = 0x7) ∧ s.cmd.extractLsb' 0 16 ≠ 0)) →
    s.runCommand = .next { s with code := 3, busy := false, done := true }) ∧
  (∀ s : State, s.cmd = 0x10000041 → s.len = 0 →
    s.runCommand = .next { s with code := 3, busy := false, done := true })

/-- R89, R90: a completion sets BUSY = 0, DONE = 1 and ERR = (CODE != 0); one with a code other than OK
changes STATUS alone; after it the sequencer waits. (The undefined case of RDBU is the rule's exception.) -/
def Obligations.ErrorsArePreciseAndAtomic : Prop :=
  ∀ s t : State, s.Covered → s.runCommand = .next t →
    t.busy = false ∧ t.done = true ∧ t.err = decide (t.code ≠ 0) ∧ t.sequencerMove = .next t ∧
    (t.code ≠ 0 → t = { s with code := t.code, busy := false, done := true })

/-- R17, R23 to R31: what no command changes, and what each kind of command may: the cursor reads VAL and POS,
HSP VAL, EPF LEN, POS and the bytes of BUF below the new LEN. (Stated of every next state, RDBU's free one
too.) -/
def Obligations.CommandsChangeOnlyTheirRegisters : Prop :=
  ∀ (i : Instr) (s t : State), exec i s = .next t →
    t.params = s.params ∧ t.cmd = s.cmd ∧ t.ovr = s.ovr ∧ t.ie = s.ie ∧ t.arg0 = s.arg0 ∧
    t.arg1 = s.arg1 ∧ t.inReset = s.inReset ∧ t.memDraw = s.memDraw ∧ t.host = s.host ∧
    t.turns = s.turns ∧ t.reads = s.reads ∧ (∀ a, t.ibufByte a = s.ibufByte a) ∧
    (i ≠ .epf → t.len = s.len ∧ ∀ a, t.bufByte a = s.bufByte a) ∧
    (i = .epf → t.val = s.val ∧ ∀ a, (epfFilter s.source).length ≤ a → t.bufByte a = s.bufByte a) ∧
    (∀ n, i = .hsp n → t.pos = s.pos)

/-- R44, R89, R91, R109: whatever the host does meanwhile, short of a reset, and however its accesses fall
before or after the completion, the command in flight completes within the coming turns and one more, with
the outputs it has on the state at acceptance. (RDBU in its defined case, R106. The list of turns, and the
sequencer's move where it says nothing, are the model's choice, log 5.) -/
def Obligations.CommandInFlightCompletes : Prop :=
  ∀ s : State, s.inFlight = true → s.Covered → (∀ e ∈ s.host, e ≠ .assertReset) →
    ∃ u, s.runCommand = .next u ∧
      ∃ k, k ≤ s.turns.length + 1 ∧ ∃ t, Host.Core.run core k s = .next t ∧
        t.busy = false ∧ t.done = true ∧ t.cmd = s.cmd ∧ t.code = u.code ∧ t.val = u.val ∧
        t.pos = u.pos ∧ t.len = u.len ∧ t.arg0 = u.arg0 ∧ t.arg1 = u.arg1 ∧
        (∀ a, t.ibufByte a = u.ibufByte a) ∧ (∀ a, t.bufByte a = u.bufByte a)

/-- R93: IRQ is CTRL.IE AND STATUS.DONE; it rises by a completion (with any code) or by enabling it while
DONE is pending, and by nothing else; a 1 written to STATUS.DONE, an acceptance and a reset clear it. -/
def Obligations.IrqIsEnableAndDone : Prop :=
  (∀ s : State, s.irq = (s.ie && s.done)) ∧
  (∀ s t : State, s.runCommand = .next t → t.irq = s.ie) ∧
  (∀ (s : State) (e : HostEvent), (s.hostEvent e).done = true → s.done = true) ∧
  (∀ s : State, s.sequencerMove ≠ .next s → s.inFlight = true) ∧
  (∀ (s : State) (d : Word), d.getLsbD 1 = true → (s.writeReg .status d).irq = false) ∧
  (∀ (s : State) (w : Word), (s.accept w).irq = false) ∧
  (∀ s : State, (s.hostEvent .assertReset).irq = false)

/-! ### Registers and the host port (10_state.md, 20_memory.md) -/

/-- R19 to R28, R36, R41: with BUSY = 0 a read at any of a register's four byte addresses returns its current
value and changes nothing else; the layout of STATUS and CTRL; VAL is its two halves (R107). -/
def Obligations.RegistersReadBack : Prop :=
  (∀ (s : State) (r : Reg) (j : Nat), j < 4 → s.inReset = false → s.busy = false →
    s.hostEvent (.read (s.params.base + r.offset + j)) = { s with reads := s.regValue r :: s.reads }) ∧
  (∀ s : State, s.regValue .cmd = s.cmd ∧ s.regValue .pos = s.pos ∧ s.regValue .len = s.len ∧
    s.regValue .arg0 = s.arg0 ∧ s.regValue .arg1 = s.arg1 ∧
    s.regValue .valHi ++ s.regValue .valLo = s.val) ∧
  (∀ s : State, (s.regValue .status).getLsbD 0 = s.busy ∧ (s.regValue .status).getLsbD 1 = s.done ∧
    (s.regValue .status).getLsbD 2 = decide (s.code ≠ 0) ∧ (s.regValue .status).getLsbD 3 = false ∧
    (s.regValue .status).extractLsb' 4 4 = s.code ∧ (s.regValue .status).getLsbD 8 = s.ovr ∧
    (∀ j, 9 ≤ j → (s.regValue .status).getLsbD j = false)) ∧
  (∀ s : State, (s.regValue .ctrl).getLsbD 0 = s.ie ∧
    ∀ j, 1 ≤ j → (s.regValue .ctrl).getLsbD j = false)

/-- R19 to R28: with BUSY = 0, a full write to each register does what its rule says: CMD issues, STATUS clears
the W1C bits written as 1, CTRL takes IE, POS, ARG0 and ARG1 store the word, LEN stores min(v, BUF_BYTES),
the read-only registers ignore it. -/
def Obligations.IdleRegisterWrites : Prop :=
  ∀ (s : State) (d : Word), s.inReset = false → s.busy = false →
    let wr := fun r : Reg => s.hostEvent (.write (s.params.base + r.offset) d 0xF)
    wr .cmd = { s with cmd := d, busy := true, done := false } ∧
    wr .status = { s with done := s.done && !d.getLsbD 1, ovr := s.ovr && !d.getLsbD 8 } ∧
    wr .ctrl = { s with ie := d.getLsbD 0 } ∧
    wr .pos = { s with pos := d } ∧
    wr .len = { s with len := BitVec.ofNat 32 (min d.toNat s.params.bufBytes) } ∧
    wr .arg0 = { s with arg0 := d } ∧ wr .arg1 = { s with arg1 := d } ∧
    wr .valLo = s ∧ wr .valHi = s ∧ wr .config = s ∧ wr .ibufSize = s ∧ wr .bufSize = s

/-- R21: over every step, BUSY rises only by a full write to CMD that is accepted, which clears DONE and leaves
CODE and OVR, and falls only at the completion or by a reset; DONE rises only at a completion, and falls only at
an acceptance, by a 1 written to its bit of STATUS or by a reset; CODE changes only at a completion or by a reset;
OVR rises only by a write to CMD, POS, LEN, ARG0, ARG1 or a window while BUSY = 1 (any byte enables at a window:
log 8), and falls only by a 1 written to its bit of STATUS or by a reset. -/
def Obligations.StatusBitsChangeOnlyAsStated : Prop :=
  ∀ s t : State, step s = .next t →
    (s.busy = false → t.busy = true →
      s.HostWrites (.reg .cmd) t.cmd 0xF ∧ t.done = false ∧ t.code = s.code ∧ t.ovr = s.ovr) ∧
    (s.busy = true → t.busy = false → (s.Completes ∧ t.done = true) ∨ s.HostResets) ∧
    (s.done = false → t.done = true → s.Completes ∧ t.busy = false) ∧
    (s.done = true → t.done = false →
      (s.HostWrites (.reg .cmd) t.cmd 0xF ∧ s.busy = false ∧ t.busy = true) ∨
      (∃ d, s.HostWrites (.reg .status) d 0xF ∧ d.getLsbD 1 = true) ∨ s.HostResets) ∧
    (t.code ≠ s.code → s.Completes ∨ s.HostResets) ∧
    (s.ovr = false → t.ovr = true → s.busy = true ∧ ∃ tg d be, s.HostWrites tg d be ∧
      ((be = 0xF ∧ ∃ r ∈ [Reg.cmd, .pos, .len, .arg0, .arg1], tg = .reg r) ∨
        ∃ k, tg = .ibuf k ∨ tg = .buf k)) ∧
    (s.ovr = true → t.ovr = false →
      (∃ d, s.HostWrites (.reg .status) d 0xF ∧ d.getLsbD 8 = true) ∨ s.HostResets)

/-- R23: while `POS > 8 * LEN` every checked read fails with INSUFFICIENT_BITS, RDB 0 too, HSP returns 0 for
every n, and RDBU is in its undefined case (here: the fault). -/
def Obligations.PositionBeyondTheBufferFailsEveryRead : Prop :=
  ∀ (s : State) (n : Nat), 8 * s.len.toNat < s.pos.toNat →
    exec (.rdb n) s = .next { s with code := 1, busy := false, done := true } ∧
    exec .rdf s = .next { s with code := 1, busy := false, done := true } ∧
    exec .rdue s = .next { s with code := 1, busy := false, done := true } ∧
    exec .rdse s = .next { s with code := 1, busy := false, done := true } ∧
    exec (.hsp n) s = .next { s with val := 0, code := 0, busy := false, done := true } ∧
    (s.params.overrun = .fault → exec (.rdbu n) s = .fault .uncheckedOverrun)

/-- R24: LEN is at most BUF_BYTES: a host write stores min(v, BUF_BYTES), a successful EPF its output length,
no other command writes it, and the bound holds after every step from a state of the invariant. -/
def Obligations.LenNeverExceedsBuf : Prop :=
  (∀ (s : State) (v : Word), s.Inv → s.busy = false →
    (s.writeReg .len v).len.toNat = min v.toNat s.params.bufBytes) ∧
  (∀ s t : State, s.Inv → exec .epf s = .next t → t.code = 0 →
    t.len.toNat = (epfFilter s.source).length) ∧
  (∀ (i : Instr) (s t : State), i ≠ .epf → exec i s = .next t → t.len = s.len) ∧
  (∀ s t : State, s.Inv → step s = .next t → t.len.toNat ≤ t.params.bufBytes)

/-- R25: VAL changes only at the successful completion of a command other than EPF, or at a reset. (Where the
fault treats RDBU's undefined case.) -/
def Obligations.ValChangesOnlyBySuccessOrReset : Prop :=
  ∀ s t : State, s.params.overrun = .fault → step s = .next t → t.val ≠ s.val →
    (s.nextAgent = .sequencer ∧ s.inFlight = true ∧ t.code = 0 ∧
      ∃ i, decode s.cmd = .legal i ∧ i ≠ .epf) ∨
    t.inReset = true

/-- R27, R28: the constant registers: the fields of CONFIG, the two sizes, zero-extended; no step changes
them. -/
def Obligations.ConstantRegistersAreConstant : Prop :=
  (∀ s : State, s.params.Legal →
    ((s.regValue .config).extractLsb' 0 6).toNat = s.params.kMax ∧
    (s.regValue .config).extractLsb' 6 2 = 0 ∧ (s.regValue .config).extractLsb' 8 8 = 0x07 ∧
    (s.regValue .config).extractLsb' 16 16 = 0 ∧
    (s.regValue .ibufSize).toNat = s.params.ibufBytes ∧
    (s.regValue .bufSize).toNat = s.params.bufBytes) ∧
  (∀ (s : State) (d : Word) (be : BitVec 4), ∀ r ∈ [Reg.config, .ibufSize, .bufSize],
    s.hostEvent (.write (s.params.base + r.offset) d be) = s) ∧
  (∀ s t : State, step s = .next t → ∀ r ∈ [Reg.config, .ibufSize, .bufSize], t.regValue r = s.regValue r)

/-- R29: a reserved register offset, and every offset from 0x30000, reads 0 and ignores writes with no side
effect, BUSY or not. -/
def Obligations.ReservedOffsetsReadZero : Prop :=
  ∀ (s : State) (off : Nat), (0x30 ≤ off ∧ off < 0x10000) ∨ (0x30000 ≤ off ∧ off < windowBytes) →
    (s.inReset = false →
      s.hostEvent (.read (s.params.base + off)) = { s with reads := 0 :: s.reads }) ∧
    (∀ d be, s.hostEvent (.write (s.params.base + off) d be) = s)

/-- R35, R36: only the 0x40000-byte window at EGVLD_BASE reaches the block (R97: other instances' accesses
leave it alone), and address bits 1:0 are ignored by every read and write. -/
def Obligations.OnlyTheAlignedWindowIsAddressed : Prop :=
  (∀ (s : State) (addr : Nat), addr < s.params.base ∨ s.params.base + 0x40000 ≤ addr →
    s.hostEvent (.read addr) = s ∧ ∀ d be, s.hostEvent (.write addr d be) = s) ∧
  (∀ (s : State) (addr : Nat), s.params.Legal →
    s.hostEvent (.read addr) = s.hostEvent (.read (addr - addr % 4)) ∧
    ∀ d be, s.hostEvent (.write addr d be) = s.hostEvent (.write (addr - addr % 4) d be))

/-- R37: a register write with any byte enable clear is ignored entirely: no command, no OVR, BUSY or not; with
all four set it takes effect (POS, on an idle block). -/
def Obligations.PartialRegisterWriteIsIgnored : Prop :=
  (∀ (s : State) (off : Nat) (d : Word) (be : BitVec 4), off < 0x10000 → be ≠ 0xF →
    s.hostEvent (.write (s.params.base + off) d be) = s) ∧
  (∀ (s : State) (d : Word), s.inReset = false → s.busy = false →
    (s.hostEvent (.write (s.params.base + 0x00C) d 0xF)).pos = d)

/-- R38: window reads and writes of an idle block, for IBUF and for BUF: byte lanes little-endian, each byte
enable its lane, an index at or beyond the memory's size reads 0 and ignores the write, every other byte as
before; the example. -/
def Obligations.WindowAccessIsLittleEndian : Prop :=
  (∀ (s : State) (w : Nat), 4 * w < 0x10000 → s.inReset = false → s.busy = false →
    (∃ v, s.hostEvent (.read (s.params.base + 0x10000 + 4 * w)) = { s with reads := v :: s.reads } ∧
      ∀ j, j < 4 → v.extractLsb' (8 * j) 8 =
        if 4 * w + j < s.params.ibufBytes then s.ibufByte (4 * w + j) else 0) ∧
    (∃ v, s.hostEvent (.read (s.params.base + 0x20000 + 4 * w)) = { s with reads := v :: s.reads } ∧
      ∀ j, j < 4 → v.extractLsb' (8 * j) 8 =
        if 4 * w + j < s.params.bufBytes then s.bufByte (4 * w + j) else 0)) ∧
  (∀ (s : State) (w : Nat) (d : Word) (be : BitVec 4), 4 * w < 0x10000 → s.inReset = false →
    s.busy = false →
    (∃ t, s.hostEvent (.write (s.params.base + 0x10000 + 4 * w) d be) = t ∧
      t = { s with ibuf := t.ibuf } ∧
      (∀ j, j < 4 → t.ibufByte (4 * w + j) =
        if be.getLsbD j = true ∧ 4 * w + j < s.params.ibufBytes then d.extractLsb' (8 * j) 8
        else s.ibufByte (4 * w + j)) ∧
      (∀ a, a < 4 * w ∨ 4 * w + 4 ≤ a → t.ibufByte a = s.ibufByte a)) ∧
    (∃ t, s.hostEvent (.write (s.params.base + 0x20000 + 4 * w) d be) = t ∧
      t = { s with buf := t.buf } ∧
      (∀ j, j < 4 → t.bufByte (4 * w + j) =
        if be.getLsbD j = true ∧ 4 * w + j < s.params.bufBytes then d.extractLsb' (8 * j) 8
        else s.bufByte (4 * w + j)) ∧
      (∀ a, a < 4 * w ∨ 4 * w + 4 ≤ a → t.bufByte a = s.bufByte a))) ∧
  (∀ s : State, s.inReset = false → s.busy = false → 4 ≤ s.params.ibufBytes →
    (List.range 4).map (s.hostEvent (.write (s.params.base + 0x10000) 0x03000000 0xF)).ibufByte =
      [0x00, 0x00, 0x00, 0x03])

/-- R42: while BUSY = 1 writes to STATUS and CTRL are performed, full writes to CMD, POS, LEN, ARG0 and ARG1
and writes to the windows are dropped and set OVR, and the rest stay ignored. (That a window write with no
byte enable, or beyond the memory's size, sets OVR as well is the model's reading, log 8.) -/
def Obligations.BusyWritesAreDropped : Prop :=
  ∀ (s : State) (d : Word), s.inReset = false → s.busy = true →
    let wr := fun (off : Nat) (be : BitVec 4) => s.hostEvent (.write (s.params.base + off) d be)
    wr Reg.status.offset 0xF =
      { s with done := s.done && !d.getLsbD 1, ovr := s.ovr && !d.getLsbD 8 } ∧
    wr Reg.ctrl.offset 0xF = { s with ie := d.getLsbD 0 } ∧
    (∀ r ∈ [Reg.cmd, .pos, .len, .arg0, .arg1], wr r.offset 0xF = { s with ovr := true }) ∧
    (∀ off be, 0x10000 ≤ off → off < 0x30000 → wr off be = { s with ovr := true }) ∧
    (∀ r ∈ [Reg.valLo, .valHi, .config, .ibufSize, .bufSize], wr r.offset 0xF = s)

/-- R43: while BUSY = 1 reads of POS, LEN, VAL_LO, VAL_HI and the BUF window return a fresh free value, all
others the current value; while BUSY = 0 every read returns the current value; no read has a side effect on
the block. -/
def Obligations.BusyReadsReturnAnyValue : Prop :=
  (∀ s : State, s.inReset = false → s.busy = true →
    (∀ off, off ∈ [0x00C, 0x010, 0x014, 0x018] ∨ (0x20000 ≤ off ∧ off < 0x30000) →
      s.hostEvent (.read (s.params.base + off)) =
        { s with reads := Config.freeWord s.draws :: s.reads, draws := s.draws + 1 }) ∧
    (∀ r ∈ [Reg.cmd, .status, .ctrl, .arg0, .arg1, .config, .ibufSize, .bufSize],
      s.hostEvent (.read (s.params.base + r.offset)) = { s with reads := s.regValue r :: s.reads }) ∧
    (∀ off, 0x10000 ≤ off → off < 0x20000 → s.hostEvent (.read (s.params.base + off)) =
      { s with reads := s.currentValue (targetOf off) :: s.reads }) ∧
    (∀ off, (0x30 ≤ off ∧ off < 0x10000) ∨ (0x30000 ≤ off ∧ off < 0x40000) →
      s.hostEvent (.read (s.params.base + off)) = { s with reads := 0 :: s.reads })) ∧
  (∀ (s : State) (off : Nat), s.inReset = false → s.busy = false → off < 0x40000 →
    s.hostEvent (.read (s.params.base + off)) =
      { s with reads := s.currentValue (targetOf off) :: s.reads })

/-- R61: `ibuf i: b0 b1 ...` and `buf i: b0 b1 ...` store those bytes from index i on and change no other byte
and no register, on an idle block. -/
def Obligations.StoreLinesStoreTheirBytes : Prop :=
  ∀ (s : State) (i : Nat) (bs : List Byte), s.params.Legal → s.inReset = false → s.busy = false →
    (i + bs.length ≤ s.params.ibufBytes →
      ∃ t, ((HostLine.ibuf i bs).expand s.params.base).foldl State.hostEvent s = t ∧
        t = { s with ibuf := t.ibuf } ∧
        (∀ j, j < bs.length → bs[j]? = some (t.ibufByte (i + j))) ∧
        (∀ a, a < i ∨ i + bs.length ≤ a → t.ibufByte a = s.ibufByte a)) ∧
    (i + bs.length ≤ s.params.bufBytes →
      ∃ t, ((HostLine.buf i bs).expand s.params.base).foldl State.hostEvent s = t ∧
        t = { s with buf := t.buf } ∧
        (∀ j, j < bs.length → bs[j]? = some (t.bufByte (i + j))) ∧
        (∀ a, a < i ∨ i + bs.length ≤ a → t.bufByte a = s.bufByte a))

/-- R61, R87, R89: a command line of a host program, on an idle block whose turns nothing else decides, runs
its command in three steps (acceptance, completion, the poll that sees BUSY = 0). -/
def Obligations.CommandLineRunsItsCommand : Prop :=
  ∀ (s : State) (m : Instr) (es : List HostEvent) (u : State), m.wellFormed = true →
    s.inReset = false → s.busy = false → s.turns = [] →
    s.host = (HostLine.command m).expand s.params.base ++ es →
    exec m { s with cmd := encode m, busy := true, done := false, host := .wait :: es } = .next u →
    Host.Core.run core 3 s = .next { u with host := es, reads := u.statusWord :: u.reads }

/-! ### Reset, hazards, the invariant (70_reset_and_hazards.md) -/

/-- R33: the state after reset, for every choice of the parameters: each register's value, no command in
flight, IRQ 0, every memory byte a free value. -/
def Obligations.ResetValuesOfTheRegisters : Prop :=
  (∀ p : Params, let s := State.resetWith p
    s.regValue .cmd = 0 ∧ s.regValue .status = 0 ∧ s.regValue .ctrl = 0 ∧ s.regValue .pos = 0 ∧
    s.regValue .len = 0 ∧ s.regValue .valLo = 0 ∧ s.regValue .valHi = 0 ∧ s.val = 0 ∧
    s.regValue .arg0 = 0 ∧ s.regValue .arg1 = 0 ∧ s.params = p ∧
    (∀ a, s.ibufByte a = Config.freeIbufByte s.memDraw a) ∧
    (∀ a, s.bufByte a = Config.freeBufByte s.memDraw a) ∧
    s.inFlight = false ∧ s.irq = false) ∧
  State.reset = State.resetWith State.reset.params

/-- R101: while reset is asserted every register has its reset value, the command in flight is gone without a
commit or DONE, the memories hold a fresh draw, host reads return any value and host writes are ignored;
released, the block is idle and masked. (That the memories are drawn at the assertion and kept by the release,
and that a reserved offset's read too returns any value meanwhile, is the model's reading, log 11.) -/
def Obligations.ResetAbandonsTheCommand : Prop :=
  (∀ s : State, let t := s.hostEvent .assertReset
    t.RegistersReset ∧ t.inReset = true ∧ t.irq = false ∧ t.params = s.params ∧
    t.memDraw = s.memDraw + 1 ∧ (∀ a, t.ibufByte a = Config.freeIbufByte t.memDraw a) ∧
    (∀ a, t.bufByte a = Config.freeBufByte t.memDraw a)) ∧
  (∀ s : State, s.inReset = true →
    s.sequencerMove = .next s ∧
    (∀ addr, s.selects addr = true → s.hostEvent (.read addr) =
      { s with reads := Config.freeWord s.draws :: s.reads, draws := s.draws + 1 }) ∧
    (∀ addr d be, s.hostEvent (.write addr d be) = s)) ∧
  (∀ s : State, s.Inv → s.inReset = true → let t := s.hostEvent .releaseReset
    t.RegistersReset ∧ t.inReset = false ∧ t.irq = false ∧ t.ibuf = s.ibuf ∧ t.buf = s.buf)

/-- R102: before the host provides a buffer (LEN = 0, POS = 0) every read of at least one bit fails with
INSUFFICIENT_BITS and HSP n returns 0 for n >= 1: no unspecified byte of BUF is ever returned. -/
def Obligations.ReadsBeforeLoadingFail : Prop :=
  ∀ s : State, s.len = 0 → s.pos = 0 → ∀ n, 1 ≤ n →
    exec (.rdb n) s = .next { s with code := 1, busy := false, done := true } ∧
    exec .rdf s = .next { s with code := 1, busy := false, done := true } ∧
    exec .rdue s = .next { s with code := 1, busy := false, done := true } ∧
    exec .rdse s = .next { s with code := 1, busy := false, done := true } ∧
    exec (.hsp n) s = .next { s with val := 0, code := 0, busy := false, done := true } ∧
    exec (.rdb 0) s = .next { s with val := 0, code := 0, busy := false, done := true }

/-- R108: a position saved and written back re-reads the same: the same command from the saved POS gives the
same VAL, POS and CODE. -/
def Obligations.SavedPositionRereads : Prop :=
  ∀ (s t : State) (i : Instr), i ≠ .epf → (∀ n, i = .rdbu n → s.avail n = true) → exec i s = .next t →
    exec i { t with pos := s.pos } = .next t

/-- The parameters may be any legal ones (R6): the state after reset with them meets the invariant, and
`State.reset` is one such state. -/
def Obligations.ResetMeetsTheInvariant : Prop :=
  (∀ p : Params, p.Legal → (State.resetWith p).Inv) ∧ State.reset.Inv

/-- The invariant (R6, R21, R24, R86, R101 and the canonical form of the memories) is kept by every step,
from every state that meets it. -/
def Obligations.EveryStepKeepsTheInvariant : Prop :=
  ∀ s t : State, s.Inv → step s = .next t → t.Inv

/-- R64, R106; 93_implementation_defined.md: "every command on every legal word and every state, except U1,
has exactly one outcome": a step stops exactly when the sequencer runs an RDBU past the end of the buffer
and the fault treats it; it never refuses. -/
def Obligations.OnlyAnUncoveredUncheckedReadStops : Prop :=
  (∀ (s : State) (f : Fault), step s = .fault f ↔
    s.nextAgent = .sequencer ∧ s.inFlight = true ∧ s.params.overrun = .fault ∧
    ∃ n, decode s.cmd = .legal (.rdbu n) ∧ 8 * s.len.toNat < s.pos.toNat + n) ∧
  (∀ (s : State) (r : Refusal), step s ≠ .refused r) ∧
  (∀ s : State, s.Covered → s.StepSafe)

/-- R100: with BUSY = 0 the block keeps all its state until the next host access or reset: the sequencer's
move changes nothing, and with no event of the host's to come (log 6) a step takes its turn off the list of turns
(log 5), whatever turns are listed, and changes nothing else; with none listed the state is the same. -/
def Obligations.IdleBlockKeepsItsState : Prop :=
  (∀ s : State, s.busy = false → s.sequencerMove = .next s) ∧
  (∀ s : State, s.busy = false → s.host = [] → step s = .next s.takeTurn) ∧
  (∀ s : State, s.busy = false → s.host = [] → s.turns = [] → step s = .next s)
end

