-- ==== Sys2Proof/Laws/Operands.lean ====
section
/-! SUPPORT. The bits the cursor reads: how many there are, how a field splits, how large it can be. -/

namespace Sys2Proof.Machine

theorem State.avail_iff (s : State) (n : Nat) :
    s.avail n = true ↔ s.pos.toNat + n ≤ 8 * s.len.toNat :=
  decide_eq_true_iff

theorem State.not_avail_iff (s : State) (n : Nat) :
    s.avail n = false ↔ 8 * s.len.toNat < s.pos.toNat + n :=
  decide_eq_false_iff_not.trans Nat.not_le

@[simp] theorem State.bits_length (s : State) (p n : Nat) : (s.bits p n).length = n := by
  induction n generalizing p with
  | zero => rfl
  | succ n ih => simp [State.bits, ih]

theorem State.bits_append (s : State) (p a b : Nat) :
    s.bits p (a + b) = s.bits p a ++ s.bits (p + a) b := by
  induction a generalizing p with
  | zero => simp [State.bits]
  | succ a ih =>
    rw [Nat.succ_add]
    simp only [State.bits, ih, List.cons_append, Nat.add_assoc, Nat.add_comm 1 a]

theorem State.bits_getElem? (s : State) (p n j : Nat) :
    (s.bits p n)[j]? = if j < n then some (s.bitAt (p + j)) else none := by
  induction n generalizing p j with
  | zero => simp [State.bits]
  | succ n ih =>
    cases j with
    | zero => simp [State.bits]
    | succ j =>
      simp only [State.bits, List.getElem?_cons_succ, ih]
      simp [Nat.add_assoc, Nat.add_comm 1 j]

/-- Two states with the same bits from `p` on read the same field there. -/
theorem State.bits_congr {s t : State} {p n : Nat} (h : ∀ j, j < n → s.bitAt (p + j) = t.bitAt (p + j)) :
    s.bits p n = t.bits p n := by
  apply List.ext_getElem?
  intro j
  rw [State.bits_getElem?, State.bits_getElem?]
  split
  · next hj => rw [h j hj]
  · rfl

theorem uint_foldl (bs : List Bool) (v : Nat) :
    bs.foldl (fun v b => 2 * v + b.toNat) v = v * 2 ^ bs.length + uint bs := by
  induction bs generalizing v with
  | nil => simp [uint]
  | cons b bs ih =>
    have h := ih b.toNat
    have h' := ih (2 * v + b.toNat)
    simp only [uint, List.foldl_cons, Nat.mul_zero, Nat.zero_add, List.length_cons] at *
    rw [h', h, Nat.add_mul, Nat.pow_succ]
    ring

theorem uint_append (a b : List Bool) : uint (a ++ b) = uint a * 2 ^ b.length + uint b := by
  rw [uint, List.foldl_append, uint_foldl]
  rfl

theorem uint_cons (b : Bool) (bs : List Bool) : uint (b :: bs) = b.toNat * 2 ^ bs.length + uint bs := by
  simpa [uint] using uint_append [b] bs

/-- A bit string of `n` bits is below `2 ^ n`. -/
theorem uint_lt (bs : List Bool) : uint bs < 2 ^ bs.length := by
  induction bs with
  | nil => simp [uint]
  | cons b bs ih =>
    rw [uint_cons, List.length_cons, Nat.pow_succ]
    cases b <;> simp <;> omega

theorem State.field_lt (s : State) (p n : Nat) : s.field p n < 2 ^ n := by
  simpa [State.field] using uint_lt (s.bits p n)

/-- A field is its first part shifted up by the rest (20_memory.md R39). -/
theorem State.field_add (s : State) (p a b : Nat) :
    s.field p (a + b) = s.field p a * 2 ^ b + s.field (p + a) b := by
  rw [State.field, State.bits_append, uint_append, State.bits_length]
  rfl

@[simp] theorem State.field_zero (s : State) (p : Nat) : s.field p 0 = 0 := rfl

@[simp] theorem State.field_one (s : State) (p : Nat) : s.field p 1 = (s.bitAt p).toNat := by
  simp [State.field, State.bits, uint]

end Sys2Proof.Machine
end

