-- ==== Sys2Proof/Laws/ExpGolomb.lean ====
section
/-! SUPPORT. Everything the prefix scan and `DecodeUE` can answer (41_exp_golomb.md R70), which later
proofs cite instead of unfolding the loop. -/

namespace Sys2Proof.Machine

variable {s : State}

/-- The one case split of a turn of the loop, for either form of `room`. -/
theorem State.scanPrefix_eq (s : State) (p k room : Nat) : s.scanPrefix p k room =
    if s.bitLen < p + 1 then .error .insufficientBits
    else if s.bitAt p then .read k (p + 1)
    else match room with
      | 0 => .error .golombOverflow
      | room + 1 => s.scanPrefix (p + 1) (k + 1) room := by
  cases room <;> rfl

/-- `z` zeros inside the buffer, with as much room left, are passed over. -/
theorem State.scanPrefix_skip {p k z room : Nat} (hz : ∀ j, j < z → s.bitAt (p + j) = false)
    (hb : p + z ≤ s.bitLen) : s.scanPrefix p k (z + room) = s.scanPrefix (p + z) (k + z) room := by
  induction z generalizing p k with
  | zero => simp
  | succ z ih =>
    rw [Nat.succ_add, State.scanPrefix_eq, if_neg (by omega), if_neg (by simpa using hz 0 (by omega))]
    show s.scanPrefix (p + 1) (k + 1) (z + room) = _
    rw [ih (fun j hj => by have := hz (j + 1) (by omega); rwa [Nat.add_assoc, Nat.add_comm 1 j])
      (by omega)]
    congr 1 <;> omega

/-- Everything a scan can answer: the prefix of `z` zeros and a 1, the truncated prefix, or the overflow. -/
theorem State.scanPrefix_cases (s : State) (p k room : Nat) :
    (∃ z, z ≤ room ∧ (∀ j, j < z → s.bitAt (p + j) = false) ∧ s.bitAt (p + z) = true ∧
      p + z + 1 ≤ s.bitLen ∧ s.scanPrefix p k room = .read (k + z) (p + z + 1)) ∨
    (s.bitLen < p + room + 1 ∧ (∀ q, p ≤ q → q < s.bitLen → s.bitAt q = false) ∧
      s.scanPrefix p k room = .error .insufficientBits) ∨
    (p + room + 1 ≤ s.bitLen ∧ (∀ j, j ≤ room → s.bitAt (p + j) = false) ∧
      s.scanPrefix p k room = .error .golombOverflow) := by
  induction room generalizing p k with
  | zero =>
    rw [State.scanPrefix_eq]
    by_cases h : s.bitLen < p + 1
    · exact .inr (.inl ⟨by omega, fun q _ _ => by omega, if_pos h⟩)
    · rw [if_neg h]
      cases hb : s.bitAt p with
      | true => exact .inl ⟨0, by omega, fun j hj => by omega, hb, by omega, if_pos rfl⟩
      | false =>
        refine .inr (.inr ⟨by omega, fun j hj => ?_, rfl⟩)
        obtain rfl : j = 0 := by omega
        exact hb
  | succ room ih =>
    rw [State.scanPrefix_eq]
    by_cases h : s.bitLen < p + 1
    · exact .inr (.inl ⟨by omega, fun q _ _ => by omega, if_pos h⟩)
    · rw [if_neg h]
      cases hb : s.bitAt p with
      | true => exact .inl ⟨0, by omega, fun j hj => by omega, hb, by omega, if_pos rfl⟩
      | false =>
        rw [if_neg (by simp)]
        rcases ih (p + 1) (k + 1) with ⟨z, hz, h0, h1, hl, he⟩ | ⟨hl, h0, he⟩ | ⟨hl, h0, he⟩
        · refine .inl ⟨z + 1, by omega, fun j hj => ?_, ?_, by omega, ?_⟩
          · cases j with
            | zero => exact hb
            | succ j => rw [← h0 j (by omega)]; congr 1; omega
          · rw [← h1]; congr 1; omega
          · show s.scanPrefix (p + 1) (k + 1) room = _
            rw [he]
            congr 1 <;> omega
        · refine .inr (.inl ⟨by omega, fun q hq hq' => ?_, he⟩)
          by_cases hqp : q = p
          · rw [hqp, hb]
          · exact h0 q (by omega) hq'
        · refine .inr (.inr ⟨by omega, fun j hj => ?_, he⟩)
          cases j with
          | zero => exact hb
          | succ j => rw [← h0 j (by omega)]; congr 1; omega

/-- Everything `DecodeUE` can answer, with the condition of each answer. -/
theorem State.decodeUE_cases (s : State) :
    (∃ k, k ≤ s.params.kMax ∧ (∀ j, j < k → s.bitAt (s.pos.toNat + j) = false) ∧
      s.bitAt (s.pos.toNat + k) = true ∧ s.pos.toNat + k + 1 ≤ s.bitLen ∧
      ((s.pos.toNat + 2 * k + 1 ≤ s.bitLen ∧
        s.decodeUE = .read (2 ^ k - 1 + s.field (s.pos.toNat + k + 1) k) (s.pos.toNat + 2 * k + 1)) ∨
       (s.bitLen < s.pos.toNat + 2 * k + 1 ∧ s.decodeUE = .error .insufficientBits))) ∨
    (s.bitLen < s.pos.toNat + s.params.kMax + 1 ∧
      (∀ q, s.pos.toNat ≤ q → q < s.bitLen → s.bitAt q = false) ∧
      s.decodeUE = .error .insufficientBits) ∨
    (s.pos.toNat + s.params.kMax + 1 ≤ s.bitLen ∧
      (∀ j, j ≤ s.params.kMax → s.bitAt (s.pos.toNat + j) = false) ∧
      s.decodeUE = .error .golombOverflow) := by
  rcases s.scanPrefix_cases s.pos.toNat 0 s.params.kMax with
    ⟨z, hz, h0, h1, hl, he⟩ | ⟨hl, h0, he⟩ | ⟨hl, h0, he⟩
  · refine .inl ⟨z, hz, h0, h1, hl, ?_⟩
    rw [Nat.zero_add] at he
    have hd : s.decodeUE = if s.bitLen < s.pos.toNat + z + 1 + z then .error .insufficientBits
        else .read (2 ^ z - 1 + s.field (s.pos.toNat + z + 1) z) (s.pos.toNat + z + 1 + z) := by
      rw [State.decodeUE, he]
    by_cases h : s.bitLen < s.pos.toNat + 2 * z + 1
    · exact .inr ⟨h, by rw [hd, if_pos (by omega)]⟩
    · refine .inl ⟨by omega, ?_⟩
      rw [hd, if_neg (by omega)]
      congr 1
      omega
  · exact .inr (.inl ⟨hl, h0, by rw [State.decodeUE, he]⟩)
  · exact .inr (.inr ⟨hl, h0, by rw [State.decodeUE, he]⟩)

/-- A number `DecodeUE` answers is at most `2^(K_MAX+1) - 2`, and its position is inside the buffer (R70). -/
theorem State.decodeUE_bounds {v p : Nat} (h : s.decodeUE = .read v p) :
    v ≤ 2 ^ (s.params.kMax + 1) - 2 ∧ s.pos.toNat < p ∧ p ≤ s.bitLen := by
  rcases s.decodeUE_cases with ⟨k, hk, _, _, _, ⟨hl, he⟩ | ⟨_, he⟩⟩ | ⟨_, _, he⟩ | ⟨_, _, he⟩ <;>
    rw [h] at he
  · simp only [UEResult.read.injEq] at he
    obtain ⟨rfl, rfl⟩ := he
    have := s.field_lt (s.pos.toNat + k + 1) k
    have : 2 ^ (k + 1) ≤ 2 ^ (s.params.kMax + 1) := Nat.pow_le_pow_right (by omega) (by omega)
    rw [Nat.pow_succ] at this
    exact ⟨by omega, by omega, hl⟩
  all_goals cases he

/-- `DecodeUE` raises INSUFFICIENT_BITS or GOLOMB_OVERFLOW and nothing else (R70). -/
theorem State.decodeUE_error {e : ResultCode} (h : s.decodeUE = .error e) :
    e = .insufficientBits ∨ e = .golombOverflow := by
  rcases s.decodeUE_cases with ⟨k, _, _, _, _, ⟨_, he⟩ | ⟨_, he⟩⟩ | ⟨_, _, he⟩ | ⟨_, _, he⟩ <;>
    rw [h] at he <;> cases he <;> simp

/-- A scan depends on the end of the buffer and on the bits it may read before it. -/
theorem State.scanPrefix_congr {t : State} {p k room : Nat} (hl : s.bitLen = t.bitLen)
    (h : ∀ j, j ≤ room → p + j < s.bitLen → s.bitAt (p + j) = t.bitAt (p + j)) :
    s.scanPrefix p k room = t.scanPrefix p k room := by
  induction room generalizing p k with
  | zero =>
    rw [State.scanPrefix_eq, State.scanPrefix_eq t, ← hl]
    split
    · rfl
    · rw [show s.bitAt p = t.bitAt p from h 0 (by omega) (by omega)]
  | succ room ih =>
    rw [State.scanPrefix_eq, State.scanPrefix_eq t, ← hl]
    split
    · rfl
    · rw [show s.bitAt p = t.bitAt p from h 0 (by omega) (by omega)]
      split
      · rfl
      · refine ih fun j hj hj' => ?_
        have := h (j + 1) (by omega) (by omega)
        rwa [show p + 1 + j = p + (j + 1) by omega]

/-- `DecodeUE` depends on POS, LEN, K_MAX and the `2 * K_MAX + 1` bits of the buffer from POS on (R75). -/
theorem State.decodeUE_congr {t : State} (hp : s.pos = t.pos) (hl : s.len = t.len)
    (hk : s.params.kMax = t.params.kMax)
    (h : ∀ j, j < 2 * s.params.kMax + 1 → s.pos.toNat + j < s.bitLen →
      s.bitAt (s.pos.toNat + j) = t.bitAt (s.pos.toNat + j)) : s.decodeUE = t.decodeUE := by
  have hb : s.bitLen = t.bitLen := by rw [State.bitLen, State.bitLen, hl]
  have hs : t.scanPrefix t.pos.toNat 0 t.params.kMax = s.scanPrefix s.pos.toNat 0 s.params.kMax := by
    rw [← hp, ← hk]
    exact (State.scanPrefix_congr hb fun j hj hj' => h j (by omega) hj').symm
  have he : ∀ u : State, u.decodeUE = match u.scanPrefix u.pos.toNat 0 u.params.kMax with
      | .error e => .error e
      | .read k p => if u.bitLen < p + k then .error .insufficientBits
          else .read (2 ^ k - 1 + u.field p k) (p + k) := fun _ => rfl
  rw [he s, he t, hs, ← hb]
  rcases s.scanPrefix_cases s.pos.toNat 0 s.params.kMax with
    ⟨z, hz, _, _, _, hr⟩ | ⟨_, _, hr⟩ | ⟨_, _, hr⟩ <;> rw [hr]
  simp only [Nat.zero_add]
  split
  · rfl
  · rw [State.field, State.field, State.bits_congr fun j hj => ?_]
    have := h (z + 1 + j) (by omega) (by omega)
    rwa [show s.pos.toNat + z + 1 + j = s.pos.toNat + (z + 1 + j) by omega]

end Sys2Proof.Machine
end

