-- ==== Sys2Proof/Laws/Memory.lean ====
section
/-! SUPPORT. What one byte of a memory reads as after a write, and that every memory operation keeps the
canonical form and the memory's size. -/

namespace Sys2Proof.Machine

theorem Memory.find_write_same (m : Memory) (i : Nat) (b : Byte) : (m.write i b).find i = some b := by
  induction m with
  | nil => simp [Memory.write, Memory.find]
  | cons c m ih =>
    simp only [Memory.write]
    split
    · simp [Memory.find]
    · split
      · simp [Memory.find]
      · simp only [Memory.find]
        rw [if_neg (by omega)]
        exact ih

theorem Memory.find_write_other (m : Memory) {i j : Nat} (h : j ≠ i) (b : Byte) :
    (m.write i b).find j = m.find j := by
  induction m with
  | nil => simp [Memory.write, Memory.find, h.symm]
  | cons c m ih =>
    simp only [Memory.write]
    split
    · simp [Memory.find, h.symm]
    · split
      · next hi => simp [Memory.find, h.symm, ← hi]
      · simp only [Memory.find, ih]

theorem Memory.mem_write {m : Memory} {i : Nat} {b : Byte} {c : Host.Cell} (h : c ∈ m.write i b) :
    c = (i, b) ∨ c ∈ m := by
  induction m with
  | nil => simpa [Memory.write] using h
  | cons d m ih =>
    simp only [Memory.write] at h
    split at h
    · simpa using h
    · split at h
      · rcases List.mem_cons.1 h with h | h
        · exact .inl h
        · exact .inr (List.mem_cons_of_mem _ h)
      · rcases List.mem_cons.1 h with h | h
        · exact .inr (h ▸ List.mem_cons_self)
        · exact (ih h).imp id (List.mem_cons_of_mem _)

/-- A write keeps the canonical form. -/
theorem Memory.write_wf {m : Memory} (h : m.wf) (i : Nat) (b : Byte) : (m.write i b).wf := by
  induction m with
  | nil => simp [Memory.write, Memory.wf]
  | cons d m ih =>
    obtain ⟨hd, hm⟩ := List.pairwise_cons.1 h
    simp only [Memory.write]
    split
    · next hi =>
      refine List.pairwise_cons.2 ⟨fun c hc => ?_, h⟩
      rcases List.mem_cons.1 hc with rfl | hc
      · exact hi
      · exact Nat.lt_trans hi (hd c hc)
    · split
      · next hi => exact List.pairwise_cons.2 ⟨fun c hc => hi ▸ hd c hc, hm⟩
      · refine List.pairwise_cons.2 ⟨fun c hc => ?_, ih hm⟩
        rcases Memory.mem_write hc with rfl | hc
        · show d.1 < i
          omega
        · exact hd c hc

theorem Memory.write_within {m : Memory} {size i : Nat} (h : m.within size) (hi : i < size) (b : Byte) :
    (m.write i b).within size := by
  intro c hc
  rcases Memory.mem_write hc with rfl | hc
  · exact hi
  · exact h c hc

theorem Memory.writeAll_wf {m : Memory} (h : m.wf) (i : Nat) (bs : List Byte) : (m.writeAll i bs).wf := by
  induction bs generalizing m i with
  | nil => exact h
  | cons b bs ih => exact ih (Memory.write_wf h i b) (i + 1)

theorem Memory.writeAll_within {m : Memory} {size : Nat} (h : m.within size) (i : Nat) (bs : List Byte)
    (hi : i + bs.length ≤ size) : (m.writeAll i bs).within size := by
  induction bs generalizing m i with
  | nil => exact h
  | cons b bs ih =>
    simp only [List.length_cons] at hi
    exact ih (Memory.write_within h (by omega) b) (i + 1) (by omega)

/-- What an address reads as after a run of bytes has been written from `i` on. -/
theorem Memory.find_writeAll (m : Memory) (i : Nat) (bs : List Byte) (j : Nat) :
    (m.writeAll i bs).find j =
      if h : i ≤ j ∧ j < i + bs.length then some (bs[j - i]'(by omega)) else m.find j := by
  induction bs generalizing m i with
  | nil => simp only [Memory.writeAll, List.length_nil]; rw [dif_neg (by omega)]
  | cons b bs ih =>
    rw [Memory.writeAll, ih]
    by_cases h1 : i + 1 ≤ j ∧ j < i + 1 + bs.length
    · rw [dif_pos h1, dif_pos ⟨by omega, by simp only [List.length_cons]; omega⟩, List.getElem_cons,
        dif_neg (by omega)]
      congr 2
    · rw [dif_neg h1]
      by_cases h2 : j = i
      · subst h2
        rw [Memory.find_write_same, dif_pos ⟨by omega, by simp only [List.length_cons]; omega⟩]
        simp
      · rw [Memory.find_write_other m h2, dif_neg]
        simp only [List.length_cons]
        omega

theorem writeLane_wf {m : Memory} (h : m.wf) (size i : Nat) (d : Word) (be : BitVec 4) (j : Nat) :
    (writeLane size i d be j m).wf := by
  unfold writeLane
  split
  · exact Memory.write_wf h _ _
  · exact h

theorem writeLane_within {m : Memory} {size : Nat} (h : m.within size) (i : Nat) (d : Word)
    (be : BitVec 4) (j : Nat) : (writeLane size i d be j m).within size := by
  unfold writeLane
  split
  · next hc => exact Memory.write_within h (by simpa using (Bool.and_eq_true_iff.1 hc).2) _
  · exact h

/-- A window write keeps the canonical form. -/
theorem writeLanes_wf {m : Memory} (h : m.wf) (size i : Nat) (d : Word) (be : BitVec 4) :
    (writeLanes size i d be m).wf :=
  writeLane_wf (writeLane_wf (writeLane_wf (writeLane_wf h _ _ _ _ _) _ _ _ _ _) _ _ _ _ _) _ _ _ _ _

/-- A window write stays inside the memory. -/
theorem writeLanes_within {m : Memory} {size : Nat} (h : m.within size) (i : Nat) (d : Word)
    (be : BitVec 4) : (writeLanes size i d be m).within size :=
  writeLane_within (writeLane_within (writeLane_within (writeLane_within h _ _ _ _) _ _ _ _) _ _ _ _) _ _ _ _

theorem find_writeLane (size i : Nat) (d : Word) (be : BitVec 4) (j : Nat) (m : Memory) (a : Nat) :
    (writeLane size i d be j m).find a =
      if be.getLsbD j = true ∧ i + j < size ∧ a = i + j then some (d.extractLsb' (8 * j) 8)
      else m.find a := by
  unfold writeLane
  by_cases hc : be.getLsbD j = true ∧ i + j < size
  · rw [if_pos (by simp [hc])]
    by_cases ha : a = i + j
    · rw [if_pos ⟨hc.1, hc.2, ha⟩, ha, Memory.find_write_same]
    · rw [if_neg (by simp [ha]), Memory.find_write_other _ ha]
  · rw [if_neg (by simpa using hc), if_neg (fun h => hc ⟨h.1, h.2.1⟩)]

end Sys2Proof.Machine
end

