-- ==== Sys2Proof/Laws/Filter.lean ====
section
/-! SUPPORT. The filter's output and the bytes EPF stores (42_emulation_prevention.md R76, R79, R81). -/

namespace Sys2Proof.Machine

/-- `m <= n` (R81). -/
theorem epfFilter_length_le (x : List Byte) : (epfFilter x).length ≤ x.length := by
  simpa [epfFilter] using List.length_filter_le (fun c => !removedAt x c.2) x.zipIdx

@[simp] theorem State.source_length (s : State) : s.source.length = s.arg1.toNat := by
  simp [State.source]

theorem State.sourceInRange_iff (s : State) :
    s.sourceInRange = true ↔ s.arg0.toNat + s.arg1.toNat ≤ s.params.ibufBytes :=
  decide_eq_true_iff

/-- What BUF reads as after the bytes `y` have been written from index 0 on. -/
theorem State.bufByte_writeAll (s : State) (y : List Byte) (j : Nat) :
    ({ s with buf := s.buf.writeAll 0 y } : State).bufByte j =
      if h : j < y.length then y[j] else s.bufByte j := by
  simp only [State.bufByte, Memory.find_writeAll, Nat.zero_le, true_and, Nat.zero_add, Nat.sub_zero]
  by_cases h : j < y.length
  · rw [dif_pos h, dif_pos h]
  · rw [dif_neg h, dif_neg h]

end Sys2Proof.Machine
end

