-- ==== Sys2Proof/Laws/Exec.lean ====
section
/-! SUPPORT. What each meaning answers, by the condition its rule gives, and what any command can answer:
provers cite these instead of unfolding the meanings. -/

namespace Sys2Proof.Machine

theorem exec_rdb_of_avail {s : State} {n : Nat} (h : s.avail n = true) :
    exec (.rdb n) s = .next (s.readFixed n) := if_pos h

theorem exec_rdb_of_short {s : State} {n : Nat} (h : s.avail n = false) :
    exec (.rdb n) s = .next (s.complete 1) := if_neg (by simp [h])

theorem exec_rdbu_of_avail {s : State} {n : Nat} (h : s.avail n = true) :
    exec (.rdbu n) s = .next (s.readFixed n) := if_pos h

theorem exec_rdbu_of_short {s : State} {n : Nat} (h : s.avail n = false) :
    exec (.rdbu n) s = s.uncheckedOverrun := if_neg (by simp [h])

theorem exec_rdf_of_avail {s : State} (h : s.avail 1 = true) :
    exec .rdf s =
      .next (s.commitRead (BitVec.ofNat 64 (s.bitAt s.pos.toNat).toNat) (s.pos.toNat + 1)) := if_pos h

theorem exec_rdf_of_short {s : State} (h : s.avail 1 = false) :
    exec .rdf s = .next (s.complete 1) := if_neg (by simp [h])

/-- RDF is RDB 1 (40_bit_cursor.md R65). -/
theorem exec_rdf_eq_rdb (s : State) : exec .rdf s = exec (.rdb 1) s := by
  cases h : s.avail 1
  · rw [exec_rdf_of_short h, exec_rdb_of_short h]
  · rw [exec_rdf_of_avail h, exec_rdb_of_avail h, State.readFixed, State.field_one]

theorem exec_hsp_eq (s : State) (n : Nat) : exec (.hsp n) s =
    .next ({ s with val := if s.avail n then 1 else 0 } : State).completeOk := rfl

theorem exec_rdue_of_read {s : State} {v p : Nat} (h : s.decodeUE = .read v p) :
    exec .rdue s = .next (s.commitRead (BitVec.ofNat 64 v) p) := by
  simp only [exec, execRdue, h]

theorem exec_rdue_of_error {s : State} {e : ResultCode} (h : s.decodeUE = .error e) :
    exec .rdue s = .next (s.complete e.toBits) := by
  simp only [exec, execRdue, h, State.raise]

theorem exec_rdse_of_read {s : State} {v p : Nat} (h : s.decodeUE = .read v p) :
    exec .rdse s = .next (s.commitRead (BitVec.ofInt 64 (signedOf v)) p) := by
  simp only [exec, execRdse, h]

theorem exec_rdse_of_error {s : State} {e : ResultCode} (h : s.decodeUE = .error e) :
    exec .rdse s = .next (s.complete e.toBits) := by
  simp only [exec, execRdse, h, State.raise]

/-- The state after a successful EPF (42_emulation_prevention.md R79). -/
abbrev State.filtered (s : State) : State :=
  ({ s with buf := s.buf.writeAll 0 (epfFilter s.source)
            len := BitVec.ofNat 32 (epfFilter s.source).length, pos := 0 } : State).completeOk

theorem exec_epf_of_inRange {s : State} (h : s.sourceInRange = true) :
    exec .epf s = .next s.filtered := if_pos h

theorem exec_epf_of_outOfRange {s : State} (h : s.sourceInRange = false) :
    exec .epf s = .next (s.complete 4) := if_neg (by simp [h])

/-- Everything a command can answer: an error that changes STATUS alone; the commit of a cursor read at a
position inside the buffer; HSP's value; EPF's; or RDBU's undefined case, as the parameter `overrun` treats
it (40_bit_cursor.md R64). -/
theorem exec_cases (i : Instr) (s : State) :
    (∃ e, e ≠ ResultCode.ok ∧ exec i s = .next (s.complete e.toBits)) ∨
    (∃ v p, i ≠ .epf ∧ (∀ n, i ≠ .hsp n) ∧ p ≤ s.bitLen ∧ exec i s = .next (s.commitRead v p)) ∨
    (∃ n v, i = .hsp n ∧ exec i s = .next ({ s with val := v } : State).completeOk) ∨
    (i = .epf ∧ s.sourceInRange = true ∧ exec i s = .next s.filtered) ∨
    (∃ n, i = .rdbu n ∧ s.avail n = false ∧ exec i s = s.uncheckedOverrun) := by
  cases i with
  | rdb n =>
    cases h : s.avail n
    · exact .inl ⟨.insufficientBits, by decide, exec_rdb_of_short h⟩
    · exact .inr (.inl ⟨_, _, by simp, by simp, (s.avail_iff n).1 h, exec_rdb_of_avail h⟩)
  | rdbu n =>
    cases h : s.avail n
    · exact .inr (.inr (.inr (.inr ⟨n, rfl, h, exec_rdbu_of_short h⟩)))
    · exact .inr (.inl ⟨_, _, by simp, by simp, (s.avail_iff n).1 h, exec_rdbu_of_avail h⟩)
  | rdf =>
    cases h : s.avail 1
    · exact .inl ⟨.insufficientBits, by decide, exec_rdf_of_short h⟩
    · exact .inr (.inl ⟨_, _, by simp, by simp, (s.avail_iff 1).1 h, exec_rdf_of_avail h⟩)
  | rdue =>
    cases h : s.decodeUE with
    | error e => exact .inl ⟨e, by rcases State.decodeUE_error h with rfl | rfl <;> decide, exec_rdue_of_error h⟩
    | read v p =>
      exact .inr (.inl ⟨_, _, by simp, by simp, (State.decodeUE_bounds h).2.2, exec_rdue_of_read h⟩)
  | rdse =>
    cases h : s.decodeUE with
    | error e => exact .inl ⟨e, by rcases State.decodeUE_error h with rfl | rfl <;> decide, exec_rdse_of_error h⟩
    | read v p =>
      exact .inr (.inl ⟨_, _, by simp, by simp, (State.decodeUE_bounds h).2.2, exec_rdse_of_read h⟩)
  | hsp n => exact .inr (.inr (.inl ⟨n, _, rfl, exec_hsp_eq s n⟩))
  | epf =>
    cases h : s.sourceInRange
    · exact .inl ⟨.badRange, by decide, exec_epf_of_outOfRange h⟩
    · exact .inr (.inr (.inr (.inl ⟨rfl, rfl, exec_epf_of_inRange h⟩)))

end Sys2Proof.Machine
end

