-- ==== Sys2Proof/Laws/State.lean ====
section
/-! SUPPORT. The state after each shared update, field by field: one lemma per field per update, true by
rfl, so that no proof unfolds a record update. -/

namespace Sys2Proof.Machine.State

variable (s : State)

/-! The fields after the completion of a command (60_exceptions.md R89). -/

@[simp] theorem complete_params (c : BitVec 4) : (s.complete c).params = s.params := rfl
@[simp] theorem complete_cmd (c : BitVec 4) : (s.complete c).cmd = s.cmd := rfl
@[simp] theorem complete_busy (c : BitVec 4) : (s.complete c).busy = false := rfl
@[simp] theorem complete_done (c : BitVec 4) : (s.complete c).done = true := rfl
@[simp] theorem complete_ovr (c : BitVec 4) : (s.complete c).ovr = s.ovr := rfl
@[simp] theorem complete_code (c : BitVec 4) : (s.complete c).code = c := rfl
@[simp] theorem complete_ie (c : BitVec 4) : (s.complete c).ie = s.ie := rfl
@[simp] theorem complete_pos (c : BitVec 4) : (s.complete c).pos = s.pos := rfl
@[simp] theorem complete_len (c : BitVec 4) : (s.complete c).len = s.len := rfl
@[simp] theorem complete_val (c : BitVec 4) : (s.complete c).val = s.val := rfl
@[simp] theorem complete_arg0 (c : BitVec 4) : (s.complete c).arg0 = s.arg0 := rfl
@[simp] theorem complete_arg1 (c : BitVec 4) : (s.complete c).arg1 = s.arg1 := rfl
@[simp] theorem complete_ibuf (c : BitVec 4) : (s.complete c).ibuf = s.ibuf := rfl
@[simp] theorem complete_buf (c : BitVec 4) : (s.complete c).buf = s.buf := rfl
@[simp] theorem complete_inReset (c : BitVec 4) : (s.complete c).inReset = s.inReset := rfl
@[simp] theorem complete_memDraw (c : BitVec 4) : (s.complete c).memDraw = s.memDraw := rfl
@[simp] theorem complete_draws (c : BitVec 4) : (s.complete c).draws = s.draws := rfl
@[simp] theorem complete_host (c : BitVec 4) : (s.complete c).host = s.host := rfl
@[simp] theorem complete_turns (c : BitVec 4) : (s.complete c).turns = s.turns := rfl
@[simp] theorem complete_reads (c : BitVec 4) : (s.complete c).reads = s.reads := rfl

/-! The fields after the completion of a successful command (00_scope.md R12). -/

@[simp] theorem completeOk_params : (s.completeOk).params = s.params := rfl
@[simp] theorem completeOk_cmd : (s.completeOk).cmd = s.cmd := rfl
@[simp] theorem completeOk_busy : (s.completeOk).busy = false := rfl
@[simp] theorem completeOk_done : (s.completeOk).done = true := rfl
@[simp] theorem completeOk_ovr : (s.completeOk).ovr = s.ovr := rfl
@[simp] theorem completeOk_code : (s.completeOk).code = 0 := rfl
@[simp] theorem completeOk_ie : (s.completeOk).ie = s.ie := rfl
@[simp] theorem completeOk_pos : (s.completeOk).pos = s.pos := rfl
@[simp] theorem completeOk_len : (s.completeOk).len = s.len := rfl
@[simp] theorem completeOk_val : (s.completeOk).val = s.val := rfl
@[simp] theorem completeOk_arg0 : (s.completeOk).arg0 = s.arg0 := rfl
@[simp] theorem completeOk_arg1 : (s.completeOk).arg1 = s.arg1 := rfl
@[simp] theorem completeOk_ibuf : (s.completeOk).ibuf = s.ibuf := rfl
@[simp] theorem completeOk_buf : (s.completeOk).buf = s.buf := rfl
@[simp] theorem completeOk_inReset : (s.completeOk).inReset = s.inReset := rfl
@[simp] theorem completeOk_memDraw : (s.completeOk).memDraw = s.memDraw := rfl
@[simp] theorem completeOk_draws : (s.completeOk).draws = s.draws := rfl
@[simp] theorem completeOk_host : (s.completeOk).host = s.host := rfl
@[simp] theorem completeOk_turns : (s.completeOk).turns = s.turns := rfl
@[simp] theorem completeOk_reads : (s.completeOk).reads = s.reads := rfl

/-! The fields after the acceptance of a command (60_exceptions.md R87). -/

@[simp] theorem accept_params (w : Word) : (s.accept w).params = s.params := rfl
@[simp] theorem accept_cmd (w : Word) : (s.accept w).cmd = w := rfl
@[simp] theorem accept_busy (w : Word) : (s.accept w).busy = true := rfl
@[simp] theorem accept_done (w : Word) : (s.accept w).done = false := rfl
@[simp] theorem accept_ovr (w : Word) : (s.accept w).ovr = s.ovr := rfl
@[simp] theorem accept_code (w : Word) : (s.accept w).code = s.code := rfl
@[simp] theorem accept_ie (w : Word) : (s.accept w).ie = s.ie := rfl
@[simp] theorem accept_pos (w : Word) : (s.accept w).pos = s.pos := rfl
@[simp] theorem accept_len (w : Word) : (s.accept w).len = s.len := rfl
@[simp] theorem accept_val (w : Word) : (s.accept w).val = s.val := rfl
@[simp] theorem accept_arg0 (w : Word) : (s.accept w).arg0 = s.arg0 := rfl
@[simp] theorem accept_arg1 (w : Word) : (s.accept w).arg1 = s.arg1 := rfl
@[simp] theorem accept_ibuf (w : Word) : (s.accept w).ibuf = s.ibuf := rfl
@[simp] theorem accept_buf (w : Word) : (s.accept w).buf = s.buf := rfl
@[simp] theorem accept_inReset (w : Word) : (s.accept w).inReset = s.inReset := rfl
@[simp] theorem accept_memDraw (w : Word) : (s.accept w).memDraw = s.memDraw := rfl
@[simp] theorem accept_draws (w : Word) : (s.accept w).draws = s.draws := rfl
@[simp] theorem accept_host (w : Word) : (s.accept w).host = s.host := rfl
@[simp] theorem accept_turns (w : Word) : (s.accept w).turns = s.turns := rfl
@[simp] theorem accept_reads (w : Word) : (s.accept w).reads = s.reads := rfl

/-! The fields after the commit of a cursor read (00_scope.md R12). -/

@[simp] theorem commitRead_params (v : DWord) (p : Nat) : (s.commitRead v p).params = s.params := rfl
@[simp] theorem commitRead_cmd (v : DWord) (p : Nat) : (s.commitRead v p).cmd = s.cmd := rfl
@[simp] theorem commitRead_busy (v : DWord) (p : Nat) : (s.commitRead v p).busy = false := rfl
@[simp] theorem commitRead_done (v : DWord) (p : Nat) : (s.commitRead v p).done = true := rfl
@[simp] theorem commitRead_ovr (v : DWord) (p : Nat) : (s.commitRead v p).ovr = s.ovr := rfl
@[simp] theorem commitRead_code (v : DWord) (p : Nat) : (s.commitRead v p).code = 0 := rfl
@[simp] theorem commitRead_ie (v : DWord) (p : Nat) : (s.commitRead v p).ie = s.ie := rfl
@[simp] theorem commitRead_pos (v : DWord) (p : Nat) : (s.commitRead v p).pos = BitVec.ofNat 32 p := rfl
@[simp] theorem commitRead_len (v : DWord) (p : Nat) : (s.commitRead v p).len = s.len := rfl
@[simp] theorem commitRead_val (v : DWord) (p : Nat) : (s.commitRead v p).val = v := rfl
@[simp] theorem commitRead_arg0 (v : DWord) (p : Nat) : (s.commitRead v p).arg0 = s.arg0 := rfl
@[simp] theorem commitRead_arg1 (v : DWord) (p : Nat) : (s.commitRead v p).arg1 = s.arg1 := rfl
@[simp] theorem commitRead_ibuf (v : DWord) (p : Nat) : (s.commitRead v p).ibuf = s.ibuf := rfl
@[simp] theorem commitRead_buf (v : DWord) (p : Nat) : (s.commitRead v p).buf = s.buf := rfl
@[simp] theorem commitRead_inReset (v : DWord) (p : Nat) : (s.commitRead v p).inReset = s.inReset := rfl
@[simp] theorem commitRead_memDraw (v : DWord) (p : Nat) : (s.commitRead v p).memDraw = s.memDraw := rfl
@[simp] theorem commitRead_draws (v : DWord) (p : Nat) : (s.commitRead v p).draws = s.draws := rfl
@[simp] theorem commitRead_host (v : DWord) (p : Nat) : (s.commitRead v p).host = s.host := rfl
@[simp] theorem commitRead_turns (v : DWord) (p : Nat) : (s.commitRead v p).turns = s.turns := rfl
@[simp] theorem commitRead_reads (v : DWord) (p : Nat) : (s.commitRead v p).reads = s.reads := rfl

/-! The fields after the draw of a free value. -/

@[simp] theorem drawn_params : (s.drawn).params = s.params := rfl
@[simp] theorem drawn_cmd : (s.drawn).cmd = s.cmd := rfl
@[simp] theorem drawn_busy : (s.drawn).busy = s.busy := rfl
@[simp] theorem drawn_done : (s.drawn).done = s.done := rfl
@[simp] theorem drawn_ovr : (s.drawn).ovr = s.ovr := rfl
@[simp] theorem drawn_code : (s.drawn).code = s.code := rfl
@[simp] theorem drawn_ie : (s.drawn).ie = s.ie := rfl
@[simp] theorem drawn_pos : (s.drawn).pos = s.pos := rfl
@[simp] theorem drawn_len : (s.drawn).len = s.len := rfl
@[simp] theorem drawn_val : (s.drawn).val = s.val := rfl
@[simp] theorem drawn_arg0 : (s.drawn).arg0 = s.arg0 := rfl
@[simp] theorem drawn_arg1 : (s.drawn).arg1 = s.arg1 := rfl
@[simp] theorem drawn_ibuf : (s.drawn).ibuf = s.ibuf := rfl
@[simp] theorem drawn_buf : (s.drawn).buf = s.buf := rfl
@[simp] theorem drawn_inReset : (s.drawn).inReset = s.inReset := rfl
@[simp] theorem drawn_memDraw : (s.drawn).memDraw = s.memDraw := rfl
@[simp] theorem drawn_draws : (s.drawn).draws = s.draws + 1 := rfl
@[simp] theorem drawn_host : (s.drawn).host = s.host := rfl
@[simp] theorem drawn_turns : (s.drawn).turns = s.turns := rfl
@[simp] theorem drawn_reads : (s.drawn).reads = s.reads := rfl

/-! The fields after the taking of a turn. -/

@[simp] theorem takeTurn_params : (s.takeTurn).params = s.params := rfl
@[simp] theorem takeTurn_cmd : (s.takeTurn).cmd = s.cmd := rfl
@[simp] theorem takeTurn_busy : (s.takeTurn).busy = s.busy := rfl
@[simp] theorem takeTurn_done : (s.takeTurn).done = s.done := rfl
@[simp] theorem takeTurn_ovr : (s.takeTurn).ovr = s.ovr := rfl
@[simp] theorem takeTurn_code : (s.takeTurn).code = s.code := rfl
@[simp] theorem takeTurn_ie : (s.takeTurn).ie = s.ie := rfl
@[simp] theorem takeTurn_pos : (s.takeTurn).pos = s.pos := rfl
@[simp] theorem takeTurn_len : (s.takeTurn).len = s.len := rfl
@[simp] theorem takeTurn_val : (s.takeTurn).val = s.val := rfl
@[simp] theorem takeTurn_arg0 : (s.takeTurn).arg0 = s.arg0 := rfl
@[simp] theorem takeTurn_arg1 : (s.takeTurn).arg1 = s.arg1 := rfl
@[simp] theorem takeTurn_ibuf : (s.takeTurn).ibuf = s.ibuf := rfl
@[simp] theorem takeTurn_buf : (s.takeTurn).buf = s.buf := rfl
@[simp] theorem takeTurn_inReset : (s.takeTurn).inReset = s.inReset := rfl
@[simp] theorem takeTurn_memDraw : (s.takeTurn).memDraw = s.memDraw := rfl
@[simp] theorem takeTurn_draws : (s.takeTurn).draws = s.draws := rfl
@[simp] theorem takeTurn_host : (s.takeTurn).host = s.host := rfl
@[simp] theorem takeTurn_turns : (s.takeTurn).turns = s.turns.tail := rfl
@[simp] theorem takeTurn_reads : (s.takeTurn).reads = s.reads := rfl

/-! The fields after the assertion of reset (70_reset_and_hazards.md R101). -/

@[simp] theorem assertReset_params : (s.assertReset).params = s.params := rfl
@[simp] theorem assertReset_cmd : (s.assertReset).cmd = 0 := rfl
@[simp] theorem assertReset_busy : (s.assertReset).busy = false := rfl
@[simp] theorem assertReset_done : (s.assertReset).done = false := rfl
@[simp] theorem assertReset_ovr : (s.assertReset).ovr = false := rfl
@[simp] theorem assertReset_code : (s.assertReset).code = 0 := rfl
@[simp] theorem assertReset_ie : (s.assertReset).ie = false := rfl
@[simp] theorem assertReset_pos : (s.assertReset).pos = 0 := rfl
@[simp] theorem assertReset_len : (s.assertReset).len = 0 := rfl
@[simp] theorem assertReset_val : (s.assertReset).val = 0 := rfl
@[simp] theorem assertReset_arg0 : (s.assertReset).arg0 = 0 := rfl
@[simp] theorem assertReset_arg1 : (s.assertReset).arg1 = 0 := rfl
@[simp] theorem assertReset_ibuf : (s.assertReset).ibuf = [] := rfl
@[simp] theorem assertReset_buf : (s.assertReset).buf = [] := rfl
@[simp] theorem assertReset_inReset : (s.assertReset).inReset = true := rfl
@[simp] theorem assertReset_memDraw : (s.assertReset).memDraw = s.memDraw + 1 := rfl
@[simp] theorem assertReset_draws : (s.assertReset).draws = s.draws := rfl
@[simp] theorem assertReset_host : (s.assertReset).host = s.host := rfl
@[simp] theorem assertReset_turns : (s.assertReset).turns = s.turns := rfl
@[simp] theorem assertReset_reads : (s.assertReset).reads = s.reads := rfl

/-! The fields after the release of reset (70_reset_and_hazards.md R101). -/

@[simp] theorem releaseReset_params : (s.releaseReset).params = s.params := rfl
@[simp] theorem releaseReset_cmd : (s.releaseReset).cmd = s.cmd := rfl
@[simp] theorem releaseReset_busy : (s.releaseReset).busy = s.busy := rfl
@[simp] theorem releaseReset_done : (s.releaseReset).done = s.done := rfl
@[simp] theorem releaseReset_ovr : (s.releaseReset).ovr = s.ovr := rfl
@[simp] theorem releaseReset_code : (s.releaseReset).code = s.code := rfl
@[simp] theorem releaseReset_ie : (s.releaseReset).ie = s.ie := rfl
@[simp] theorem releaseReset_pos : (s.releaseReset).pos = s.pos := rfl
@[simp] theorem releaseReset_len : (s.releaseReset).len = s.len := rfl
@[simp] theorem releaseReset_val : (s.releaseReset).val = s.val := rfl
@[simp] theorem releaseReset_arg0 : (s.releaseReset).arg0 = s.arg0 := rfl
@[simp] theorem releaseReset_arg1 : (s.releaseReset).arg1 = s.arg1 := rfl
@[simp] theorem releaseReset_ibuf : (s.releaseReset).ibuf = s.ibuf := rfl
@[simp] theorem releaseReset_buf : (s.releaseReset).buf = s.buf := rfl
@[simp] theorem releaseReset_inReset : (s.releaseReset).inReset = false := rfl
@[simp] theorem releaseReset_memDraw : (s.releaseReset).memDraw = s.memDraw := rfl
@[simp] theorem releaseReset_draws : (s.releaseReset).draws = s.draws := rfl
@[simp] theorem releaseReset_host : (s.releaseReset).host = s.host := rfl
@[simp] theorem releaseReset_turns : (s.releaseReset).turns = s.turns := rfl
@[simp] theorem releaseReset_reads : (s.releaseReset).reads = s.reads := rfl

end Sys2Proof.Machine.State
end

