-- ==== Sys2Proof/Laws/HostPort.lean ====
section
/-! SUPPORT. Everything one host event can do to the block, said once (20_memory.md R36 to R43,
70_reset_and_hazards.md R101), and that it leaves a command in flight its inputs (R44). -/

namespace Sys2Proof.Machine

/-- Any of a register's four byte addresses reaches it (R19, R36). -/
theorem targetOf_reg (r : Reg) {j : Nat} (hj : j < 4) : targetOf (r.offset + j) = .reg r := by
  have h : r.offset % 4 = 0 ∧ r.offset < 0x30 := by cases r <;> decide
  have ha : r.offset + j - (r.offset + j) % 4 = r.offset := by omega
  unfold targetOf
  simp only [ha]
  cases r <;> rfl

/-- An offset of the IBUF window reaches the four bytes it lies in (R35, R36). -/
theorem targetOf_ibuf {off : Nat} (h : 0x10000 ≤ off) (h' : off < 0x20000) :
    targetOf off = .ibuf (off - off % 4 - 0x10000) := by
  unfold targetOf
  simp only
  rw [if_neg (by omega), if_pos (by omega)]

/-- An offset of the BUF window reaches the four bytes it lies in (R35, R36). -/
theorem targetOf_buf {off : Nat} (h : 0x20000 ≤ off) (h' : off < 0x30000) :
    targetOf off = .buf (off - off % 4 - 0x20000) := by
  unfold targetOf
  simp only
  rw [if_neg (by omega), if_neg (by omega), if_pos (by omega)]

/-- The reserved offsets (R19, R35). -/
theorem targetOf_reserved {off : Nat} (h : (0x30 ≤ off ∧ off < 0x10000) ∨ 0x30000 ≤ off) :
    targetOf off = .reserved := by
  unfold targetOf
  simp only
  by_cases h1 : off - off % 4 < 0x10000
  · rw [if_pos h1]
    obtain ⟨n, hn⟩ : ∃ n, (off - off % 4) / 4 = n + 12 := ⟨(off - off % 4) / 4 - 12, by omega⟩
    rw [hn]
    rfl
  · rw [if_neg h1, if_neg (by omega), if_neg (by omega)]

theorem State.selects_base (s : State) {off : Nat} (h : off < windowBytes) :
    s.selects (s.params.base + off) = true := by
  simp only [State.selects, Bool.and_eq_true, decide_eq_true_eq]
  omega

/-- A read at an offset of the window is the host port's read there. -/
theorem State.hostEvent_read_base (s : State) {off : Nat} (h : off < windowBytes) :
    s.hostEvent (.read (s.params.base + off)) = s.hostRead off := by
  show (if s.selects (s.params.base + off) then s.hostRead (s.params.base + off - s.params.base) else s) = _
  rw [if_pos (s.selects_base h), Nat.add_sub_cancel_left]

/-- A write at an offset of the window is the host port's write there. -/
theorem State.hostEvent_write_base (s : State) {off : Nat} (h : off < windowBytes) (d : Word)
    (be : BitVec 4) : s.hostEvent (.write (s.params.base + off) d be) = s.hostWrite off d be := by
  show (if s.selects (s.params.base + off) then s.hostWrite (s.params.base + off - s.params.base) d be
    else s) = _
  rw [if_pos (s.selects_base h), Nat.add_sub_cancel_left]

/-- A read that returns the current value: reset released, and the block idle or the target not open
(R43). -/
theorem State.hostRead_current {s : State} {off : Nat} (hr : s.inReset = false)
    (hb : (s.busy && (targetOf off).openWhileBusy) = false) :
    s.hostRead off = { s with reads := s.currentValue (targetOf off) :: s.reads } := by
  simp only [State.hostRead, State.readValue, hr, hb, Bool.or_self, Bool.false_eq_true, if_false]

/-- A read that returns any value (R43, R101). -/
theorem State.hostRead_any {s : State} {off : Nat}
    (h : (s.inReset || (s.busy && (targetOf off).openWhileBusy)) = true) :
    s.hostRead off =
      { s with reads := Config.freeWord s.draws :: s.reads, draws := s.draws + 1 } := by
  simp only [State.hostRead, State.readValue, h, if_true]
  rfl

theorem State.hostWrite_released {s : State} (hr : s.inReset = false) (off : Nat) (d : Word)
    (be : BitVec 4) : s.hostWrite off d be = s.writeTarget (targetOf off) d be :=
  if_neg (by simp [hr])

theorem State.unlessBusy_idle {s : State} (h : s.busy = false) (t : State) : s.unlessBusy t = t :=
  if_neg (by simp [h])

theorem State.unlessBusy_busy {s : State} (h : s.busy = true) (t : State) :
    s.unlessBusy t = { s with ovr := true } := if_pos h

theorem State.hostEvent_read (s : State) (addr : Nat) : s.hostEvent (.read addr) =
    if s.selects addr then s.hostRead (addr - s.params.base) else s := rfl

theorem State.hostEvent_write (s : State) (addr : Nat) (d : Word) (be : BitVec 4) :
    s.hostEvent (.write addr d be) =
      if s.selects addr then s.hostWrite (addr - s.params.base) d be else s := rfl

theorem State.hostEvent_wait (s : State) : s.hostEvent .wait = s.poll := rfl

/-- A read changes only what the host has seen and the count of free values drawn. -/
theorem State.hostRead_eq (s : State) (off : Nat) :
    ∃ w d, s.hostRead off = { s with reads := w :: s.reads, draws := d } := by
  unfold State.hostRead
  split
  · exact ⟨_, _, rfl⟩
  · exact ⟨_, _, rfl⟩

/-- A poll is a read of STATUS, after which the wait goes on or is over. -/
theorem State.poll_eq (s : State) : ∃ w d h, (h = s.host ∨ h = .wait :: s.host) ∧
    s.poll = { s with reads := w :: s.reads, draws := d, host := h } := by
  obtain ⟨w, d, he⟩ := s.hostRead_eq Reg.status.offset
  rw [State.poll, he]
  by_cases hb : w.getLsbD 0 = true
  · exact ⟨w, d, .wait :: s.host, .inr rfl, by simp only [hb, if_true]⟩
  · exact ⟨w, d, s.host, .inl rfl, by simp only [hb, Bool.false_eq_true, if_false]⟩

/-- The writes that R42 drops while BUSY = 1: full writes to CMD, POS, LEN, ARG0 and ARG1, and any write to a
window (log 8). -/
def Target.DroppedWhileBusy (tg : Target) (be : BitVec 4) : Prop :=
  (be = 0xF ∧ ∃ r ∈ [Reg.cmd, .pos, .len, .arg0, .arg1], tg = .reg r) ∨ ∃ k, tg = .ibuf k ∨ tg = .buf k

/-- The next states a write of `d` can lead to, by the target it reaches. -/
inductive State.Written (s : State) (d : Word) (be : BitVec 4) : Target → State → Prop where
  | ignored (tg : Target) : Written s d be tg s
  | dropped (tg : Target) (h : s.busy = true) (ht : tg.DroppedWhileBusy be) :
      Written s d be tg { s with ovr := true }
  | status (hb : be = 0xF) : Written s d be (.reg .status)
      { s with done := s.done && !d.getLsbD 1, ovr := s.ovr && !d.getLsbD 8 }
  | ctrl (hb : be = 0xF) : Written s d be (.reg .ctrl) { s with ie := d.getLsbD 0 }
  | accepted (h : s.busy = false) (hb : be = 0xF) : Written s d be (.reg .cmd) (s.accept d)
  | pos (h : s.busy = false) (hb : be = 0xF) : Written s d be (.reg .pos) { s with pos := d }
  | len (h : s.busy = false) (hb : be = 0xF) :
      Written s d be (.reg .len) { s with len := legalLen s.params d }
  | arg0 (h : s.busy = false) (hb : be = 0xF) : Written s d be (.reg .arg0) { s with arg0 := d }
  | arg1 (h : s.busy = false) (hb : be = 0xF) : Written s d be (.reg .arg1) { s with arg1 := d }
  | ibuf (h : s.busy = false) (i : Nat) : Written s d be (.ibuf i)
      { s with ibuf := writeLanes s.params.ibufBytes i d be s.ibuf }
  | buf (h : s.busy = false) (i : Nat) : Written s d be (.buf i)
      { s with buf := writeLanes s.params.bufBytes i d be s.buf }

/-- A state that a write performs with BUSY = 0, or the drop while BUSY = 1 (R42). -/
theorem State.written_unlessBusy {s t : State} {d : Word} {be : BitVec 4} {tg : Target}
    (ht : tg.DroppedWhileBusy be) (h : s.busy = false → State.Written s d be tg t) :
    State.Written s d be tg (s.unlessBusy t) := by
  cases hb : s.busy
  · rw [State.unlessBusy_idle hb]
    exact h hb
  · rw [State.unlessBusy_busy hb]
    exact .dropped tg hb ht

theorem State.written_writeTarget (s : State) (tg : Target) (d : Word) (be : BitVec 4) :
    State.Written s d be tg (s.writeTarget tg d be) := by
  cases tg with
  | reg r =>
    by_cases hb : be = 0xF
    · simp only [State.writeTarget, hb, if_true]
      have ht (h : r ∈ [Reg.cmd, .pos, .len, .arg0, .arg1]) : (Target.reg r).DroppedWhileBusy 0xF :=
        .inl ⟨rfl, r, h, rfl⟩
      cases r with
      | cmd => exact State.written_unlessBusy (ht (by decide)) (.accepted · rfl)
      | status => exact .status rfl
      | ctrl => exact .ctrl rfl
      | pos => exact State.written_unlessBusy (ht (by decide)) (.pos · rfl)
      | len => exact State.written_unlessBusy (ht (by decide)) (.len · rfl)
      | valLo => exact .ignored _
      | valHi => exact .ignored _
      | arg0 => exact State.written_unlessBusy (ht (by decide)) (.arg0 · rfl)
      | arg1 => exact State.written_unlessBusy (ht (by decide)) (.arg1 · rfl)
      | config => exact .ignored _
      | ibufSize => exact .ignored _
      | bufSize => exact .ignored _
    · simp only [State.writeTarget, hb, if_false]
      exact .ignored _
  | ibuf i => exact State.written_unlessBusy (.inr ⟨i, .inl rfl⟩) (.ibuf · i)
  | buf i => exact State.written_unlessBusy (.inr ⟨i, .inr rfl⟩) (.buf · i)
  | reserved => exact .ignored _

/-- Everything one host event can do to the state. -/
inductive State.Happened (s : State) : HostEvent → State → Prop where
  | other (e : HostEvent) : Happened s e s
  | seen (e : HostEvent) (w : Word) (d : Nat) (h : List HostEvent)
      (hh : h = s.host ∨ h = .wait :: s.host) :
      Happened s e { s with reads := w :: s.reads, draws := d, host := h }
  | write (addr : Nat) (d : Word) (be : BitVec 4) (t : State) (hs : s.selects addr = true)
      (hr : s.inReset = false) (h : State.Written s d be (targetOf (addr - s.params.base)) t) :
      Happened s (.write addr d be) t
  | assertReset : Happened s .assertReset s.assertReset
  | releaseReset : Happened s .releaseReset s.releaseReset

/-- The inversion lemma of the host's side: later proofs cite it and never unfold `hostEvent`. -/
theorem State.happened_hostEvent (s : State) (e : HostEvent) : State.Happened s e (s.hostEvent e) := by
  cases e with
  | read addr =>
    rw [State.hostEvent_read]
    split
    · obtain ⟨w, d, he⟩ := s.hostRead_eq (addr - s.params.base)
      rw [he]
      exact .seen _ w d s.host (.inl rfl)
    · exact .other _
  | write addr d be =>
    rw [State.hostEvent_write, State.hostWrite]
    split
    · next hs =>
      split
      · exact .other _
      · next hr => exact .write addr d be _ hs (by simpa using hr) (s.written_writeTarget _ d be)
    · exact .other _
  | wait =>
    obtain ⟨w, d, h, hh, he⟩ := s.poll_eq
    rw [State.hostEvent_wait, he]
    exact .seen _ w d h hh
  | assertReset => exact .assertReset
  | releaseReset => exact .releaseReset

/-- What a host move leaves a command in flight: every input and the result code (R44). -/
structure State.SameCommand (s t : State) : Prop where
  params : t.params = s.params
  cmd : t.cmd = s.cmd
  busy : t.busy = s.busy
  inReset : t.inReset = s.inReset
  code : t.code = s.code
  pos : t.pos = s.pos
  len : t.len = s.len
  val : t.val = s.val
  arg0 : t.arg0 = s.arg0
  arg1 : t.arg1 = s.arg1
  ibuf : t.ibuf = s.ibuf
  buf : t.buf = s.buf
  memDraw : t.memDraw = s.memDraw

/-- No host event but a reset reaches the inputs of the command in flight (R42, R44). -/
theorem State.sameCommand_hostEvent {s : State} {e : HostEvent} (hf : s.inFlight = true)
    (he : e ≠ .assertReset) : State.SameCommand s (s.hostEvent e) := by
  obtain ⟨hb, hr⟩ : s.busy = true ∧ s.inReset = false := by simpa [State.inFlight] using hf
  have h := s.happened_hostEvent e
  generalize s.hostEvent e = t at h
  cases h with
  | other => constructor <;> rfl
  | seen => constructor <;> rfl
  | write addr d be t hs hr' h =>
    generalize targetOf (addr - s.params.base) = tg at h
    cases h with
    | ignored => constructor <;> rfl
    | dropped => constructor <;> rfl
    | status => constructor <;> rfl
    | ctrl => constructor <;> rfl
    | accepted h => simp [hb] at h
    | pos h => simp [hb] at h
    | len h => simp [hb] at h
    | arg0 h => simp [hb] at h
    | arg1 h => simp [hb] at h
    | ibuf h => simp [hb] at h
    | buf h => simp [hb] at h
  | assertReset => exact absurd rfl he
  | releaseReset => constructor <;> first | rfl | simp [hr]

end Sys2Proof.Machine
end

