-- ==== Sys2Proof/Laws/PerInstr.lean ====
section
/-! SUPPORT. The family Fields: the fields of a command's encoding are its opcode, zero, and its count
(30_encoding.md R49), one lemma per command. -/

namespace Sys2Proof.Laws.Fields

/-- The encoding of a well-formed command has its OP, RSV = 0 and its N. -/
def Statement (i : Instr) : Prop :=
  i.wellFormed = true →
    opField (encode i) = i.opcode ∧ rsvField (encode i) = 0 ∧ countField (encode i) = i.count

/-- The fields of any OP, RSV = 0, N put together. -/
theorem fields_of_parts (op : BitVec 4) (n : Nat) (hn : n < 65536) :
    opField (op ++ (0 : BitVec 12) ++ BitVec.ofNat 16 n) = op ∧
    rsvField (op ++ (0 : BitVec 12) ++ BitVec.ofNat 16 n) = 0 ∧
    countField (op ++ (0 : BitVec 12) ++ BitVec.ofNat 16 n) = n := by
  refine ⟨?_, ?_, ?_⟩
  · apply BitVec.eq_of_getLsbD_eq
    intro i hi
    simp only [opField, BitVec.getLsbD_extractLsb', BitVec.getLsbD_append, hi, decide_true, Bool.true_and]
    rw [if_neg (by omega), if_neg (by omega)]
    congr 1
    omega
  · apply BitVec.eq_of_getLsbD_eq
    intro i hi
    simp only [rsvField, BitVec.getLsbD_extractLsb', BitVec.getLsbD_append, hi, decide_true, Bool.true_and]
    rw [if_neg (by omega), if_pos (by omega)]
    simp
  · have h : BitVec.extractLsb' 0 16 (op ++ (0 : BitVec 12) ++ BitVec.ofNat 16 n) = BitVec.ofNat 16 n := by
      apply BitVec.eq_of_getLsbD_eq
      intro i hi
      simp only [BitVec.getLsbD_extractLsb', BitVec.getLsbD_append, hi, decide_true, Bool.true_and]
      rw [if_pos (by omega)]
      congr 1
      omega
    simp only [countField, h, BitVec.toNat_ofNat]
    omega

theorem rdb (n : Nat) : Statement (.rdb n) := fun h =>
  fields_of_parts 0x1 n (by simp only [Instr.wellFormed, decide_eq_true_eq] at h; omega)

theorem rdbu (n : Nat) : Statement (.rdbu n) := fun h =>
  fields_of_parts 0x2 n (by simp only [Instr.wellFormed, decide_eq_true_eq] at h; omega)

theorem rdf : Statement .rdf := fun _ => fields_of_parts 0x3 0 (by omega)

theorem rdue : Statement .rdue := fun _ => fields_of_parts 0x4 0 (by omega)

theorem rdse : Statement .rdse := fun _ => fields_of_parts 0x5 0 (by omega)

theorem hsp (n : Nat) : Statement (.hsp n) := fun h =>
  fields_of_parts 0x6 n (by simp only [Instr.wellFormed, decide_eq_true_eq] at h; omega)

theorem epf : Statement .epf := fun _ => fields_of_parts 0x7 0 (by omega)

end Sys2Proof.Laws.Fields
end

