-- ==== Sys2Proof/Laws/Step.lean ====
section
/-! SUPPORT. Everything one step can do, said once: provers cite it instead of unfolding `step`. -/

namespace Sys2Proof.Machine

/-- The command in flight runs: its meaning, or the one answer to an illegal word (60_exceptions.md R88). -/
theorem State.runCommand_cases (s : State) :
    (∃ i, decode s.cmd = .legal i ∧ s.runCommand = exec i s) ∨
    (∃ why, decode s.cmd = .illegal why ∧ s.runCommand = .next (s.complete 3)) := by
  unfold State.runCommand
  cases decode s.cmd with
  | legal i => exact .inl ⟨i, rfl, rfl⟩
  | illegal why => exact .inr ⟨why, rfl, rfl⟩

/-- Whatever a command answers, it ends the command and leaves OVR alone (60_exceptions.md R89). -/
theorem State.runCommand_ends {s t : State} (h : s.runCommand = .next t) :
    t.busy = false ∧ t.done = true ∧ t.ovr = s.ovr := by
  rcases s.runCommand_cases with ⟨i, -, hr⟩ | ⟨why, -, hr⟩ <;> rw [hr] at h
  · rcases exec_cases i s with ⟨e, -, he⟩ | ⟨v, p, -, -, -, he⟩ | ⟨n, v, -, he⟩ | ⟨-, -, he⟩ |
        ⟨n, -, -, he⟩ <;> rw [he] at h
    case inr.inr.inr.inr =>
      unfold State.uncheckedOverrun at h
      split at h <;> cases h
      exact ⟨rfl, rfl, rfl⟩
    all_goals
      cases h
      exact ⟨rfl, rfl, rfl⟩
  · cases h
    exact ⟨rfl, rfl, rfl⟩

/-- A step, by whose turn it is and what there is to do. -/
theorem step_cases (s : State) :
    (s.nextAgent = .sequencer ∧ s.inFlight = true ∧ step s = s.takeTurn.runCommand) ∨
    (s.nextAgent = .sequencer ∧ s.inFlight = false ∧ step s = .next s.takeTurn) ∨
    (s.nextAgent = .host ∧ s.host = [] ∧ step s = .next s.takeTurn) ∨
    (s.nextAgent = .host ∧ ∃ e es, s.host = e :: es ∧
      step s = .next (({ s.takeTurn with host := es } : State).hostEvent e)) := by
  unfold step State.move
  cases s.nextAgent with
  | sequencer =>
    have hf : s.takeTurn.inFlight = s.inFlight := rfl
    cases h : s.inFlight
    · exact .inr (.inl ⟨rfl, rfl, by simp [State.sequencerMove, hf, h]⟩)
    · exact .inl ⟨rfl, rfl, by simp [State.sequencerMove, hf, h]⟩
  | host =>
    cases h : s.host with
    | nil => exact .inr (.inr (.inl ⟨rfl, rfl, by simp [State.hostMove, State.takeTurn, h]⟩))
    | cons e es =>
      exact .inr (.inr (.inr ⟨rfl, e, es, rfl, by simp [State.hostMove, State.takeTurn, h]⟩))

end Sys2Proof.Machine
end

