-- ==== Sys2Proof/Tests/Slice0.lean ====
section
/-! SUPPORT. The model's own tests: what WellFormed refuses, command words written out from R49 and R51, at
most two one-step tests per command (vectors of 95_test_vectors.md, computed there from the rules), and, for
every obligation with hypotheses, a concrete state and operands that meet them together. -/

open Sys2Proof Sys2Proof.Machine

namespace Sys2Proof.Tests

-- One theorem after another: many at once can exhaust the thread stacks' memory.
set_option Elab.async false

/-! ### Small states -/

/-- The bytes `bs` stored from index `i` on. -/
def bytesAt (i : Nat) (bs : List Nat) : Memory :=
  bs.zipIdx.map (fun c => (i + c.2, BitVec.ofNat 8 c.1))

/-- Small legal parameters, with a base that is not 0. -/
def small : Params :=
  { ibufBytes := 16, bufBytes := 32, kMax := 31, base := 0x40000, overrun := .fault }

/-- An idle block whose buffer is the bytes `bs`, the cursor at `pos` and 0x77 in VAL. -/
def cursorOn (bs : List Nat) (pos : Word) : State :=
  { State.resetWith small with
    buf := bytesAt 0 bs, len := BitVec.ofNat 32 bs.length, pos := pos, val := 0x77 }

/-- An idle block with the bytes `bs` in IBUF, ARG0 and ARG1 given, LEN = 5, POS = 9 and 0x77 in VAL. -/
def filterOn (bs : List Nat) (arg0 arg1 : Word) : State :=
  { State.resetWith small with
    ibuf := bytesAt 0 bs, arg0 := arg0, arg1 := arg1, len := 5, pos := 9, val := 0x77 }

/-- `s` with the word `w` accepted as its command. -/
def running (w : Word) (s : State) : State := { s with cmd := w, busy := true }

/-- CODE, VAL and POS of a next state. -/
def result : Host.Outcome State Fault Refusal → Option (Nat × Nat × Nat)
  | .next t => some (t.code.toNat, t.val.toNat, t.pos.toNat)
  | .fault _ => none
  | .refused _ => none

/-- CODE, LEN, POS and VAL of a next state, and what its BUF lists. -/
def filtered : Host.Outcome State Fault Refusal → Option (List Nat × Memory)
  | .next t => some ([t.code.toNat, t.len.toNat, t.pos.toNat, t.val.toNat], t.buf)
  | .fault _ => none
  | .refused _ => none

/-- One step that runs the command word `w`. -/
def runWord (w : Nat) (s : State) : Host.Outcome State Fault Refusal := step (s.withFetchWord 32 w)

def vBytes : List Nat := [0x12, 0x34, 0x56, 0x78, 0x9A, 0xBC, 0xDE, 0xF0, 0x11]
def g7Bytes : List Nat := [0x00, 0x00, 0x00, 0x01, 0xFF, 0xFF, 0xFF, 0xFE]

/-! ### What WellFormed refuses (R52) -/

theorem test_wellFormed_refuses_long_rdb : (Instr.rdb 65).wellFormed = false := by decide
theorem test_wellFormed_refuses_long_rdbu : (Instr.rdbu 65).wellFormed = false := by decide
theorem test_wellFormed_refuses_wide_hsp : (Instr.hsp 65536).wellFormed = false := by decide

/-! ### Words written out from the encoding (R49 to R53; V8, V14 to V16, G21, E16) -/

theorem test_decode_rdb : decode 0b00010000000000000000000000001101 = .legal (.rdb 13) := by decide
theorem test_decode_rdbu : decode 0b00100000000000000000000001000000 = .legal (.rdbu 64) := by decide
theorem test_decode_rdf : decode 0b00110000000000000000000000000000 = .legal .rdf := by decide
theorem test_decode_rdue : decode 0b01000000000000000000000000000000 = .legal .rdue := by decide
theorem test_decode_rdse : decode 0b01010000000000000000000000000000 = .legal .rdse := by decide
theorem test_decode_hsp : decode 0b01100000000000001111111111111111 = .legal (.hsp 65535) := by decide
theorem test_decode_epf : decode 0b01110000000000000000000000000000 = .legal .epf := by decide
theorem test_decode_illegal :
    decode 0 = .illegal .reservedOpcode ∧ decode 0x80000000 = .illegal .reservedOpcode ∧
    decode 0xF0000000 = .illegal .reservedOpcode ∧ decode 0x10010008 = .illegal .reservedBitSet ∧
    decode 0x68000001 = .illegal .reservedBitSet ∧ decode 0x10000041 = .illegal .countOutOfRange ∧
    decode 0x20000041 = .illegal .countOutOfRange ∧ decode 0x30000001 = .illegal .countOutOfRange ∧
    decode 0x40000001 = .illegal .countOutOfRange ∧ decode 0x50008000 = .illegal .countOutOfRange ∧
    decode 0x70000010 = .illegal .countOutOfRange := by decide
theorem test_tableWord :
    decodeTableWord 32 0x2000000D = some (.rdbu 13) ∧ decodeTableWord 32 0x10000041 = none := by decide

/-! ### One step, from the vectors of 95_test_vectors.md -/

/-- V5: 64 bits across nine bytes. -/
theorem test_rdb_straddles :
    result (runWord 0x10000040 (cursorOn vBytes 4)) = some (0, 0x23456789ABCDEF01, 68) := by
  decide +kernel
/-- V7: one bit too many. -/
theorem test_rdb_short : result (runWord 0x10000040 (cursorOn vBytes 9)) = some (1, 0x77, 9) := by
  decide +kernel
/-- Section 2.2: RDBU in its defined case. -/
theorem test_rdbu_inside : result (runWord 0x20000004 (cursorOn [0xF0] 2)) = some (0, 0xC, 6) := by
  decide +kernel
/-- Section 2.2: RDBU 0 at the end of the buffer is defined. -/
theorem test_rdbu_zero_at_end : result (runWord 0x20000000 (cursorOn [0xF0] 8)) = some (0, 0, 8) := by
  decide +kernel
/-- V10: the last bit of the buffer. -/
theorem test_rdf_last_bit : result (runWord 0x30000000 (cursorOn vBytes 71)) = some (0, 1, 72) := by
  decide +kernel
/-- V12. -/
theorem test_rdf_at_end : result (runWord 0x30000000 (cursorOn vBytes 72)) = some (1, 0x77, 72) := by
  decide +kernel
/-- G7: the greatest code of K_MAX = 31. -/
theorem test_rdue_greatest : result (runWord 0x40000000 (cursorOn g7Bytes 0)) = some (0, 4294967294, 63) := by
  decide +kernel
/-- G8: K_MAX + 1 zeros. -/
theorem test_rdue_overflow : result (runWord 0x40000000 (cursorOn [0, 0, 0, 0] 0)) = some (2, 0x77, 0) := by
  decide +kernel
/-- G4: an even code is negative, sign-extended to 64 bits. -/
theorem test_rdse_negative :
    result (runWord 0x50000000 (cursorOn [0x12] 0)) = some (0, 0xFFFFFFFFFFFFFFFC, 7) := by decide +kernel
/-- G18: K_MAX = 63, the most negative result. -/
theorem test_rdse_most_negative :
    result (runWord 0x50000000
      { cursorOn [0, 0, 0, 0, 0, 0, 0, 1, 0xFF, 0xFF, 0xFF, 0xFF, 0xFF, 0xFF, 0xFF, 0xFE] 0 with
        params := { small with kMax := 63 } }) = some (0, 0x8000000000000001, 127) := by decide +kernel
/-- Section 2.2: HSP 4 at bit 12 of 16. -/
theorem test_hsp_exact : result (runWord 0x60000004 (cursorOn [0xA6, 0x40] 12)) = some (0, 1, 12) := by
  decide +kernel
/-- Section 2.2: HSP 5 there. -/
theorem test_hsp_short : result (runWord 0x60000005 (cursorOn [0xA6, 0x40] 12)) = some (0, 0, 12) := by
  decide +kernel
/-- E6: two matches and a byte after them. -/
theorem test_epf_two_matches :
    filtered (runWord 0x70000000 (filterOn [0, 0, 3, 0, 0, 3, 1] 0 7)) =
      some ([0, 5, 0, 0x77], bytesAt 0 [0, 0, 0, 0, 1]) := by decide +kernel
/-- E14: the range sum does not wrap. -/
theorem test_epf_bad_range :
    filtered (runWord 0x70000000 (filterOn [0, 0, 3] 0xFFFFFFFF 2)) = some ([4, 5, 9, 0x77], []) := by
  decide +kernel
/-- H8: the reset value of CMD is no command. -/
theorem test_illegal_completes : result (runWord 0 (cursorOn [0xA6] 3)) = some (3, 0x77, 3) := by
  decide +kernel
/-- H1, H5: CONFIG for K_MAX = 31, and STATUS with OVR, CODE 2, ERR and DONE set. -/
theorem test_register_words :
    (cursorOn [] 0).regValue .config = 0x0000071F ∧
    ({ cursorOn [] 0 with ovr := true, code := 2, done := true } : State).regValue .status = 0x126 := by
  decide
/-- H11: a BUF window read is little-endian. -/
theorem test_window_read :
    ((cursorOn vBytes 0).hostEvent (.read 0x60000)).reads = [0x78563412] := by decide +kernel

/-! ### The hypotheses of the obligations can be met -/

/-- A state whose command is not an uncovered RDBU is covered. -/
theorem covered_of (s : State) (d : Decoded) (h : decode s.cmd = d)
    (hd : ∀ n, d = .legal (.rdbu n) → s.avail n = true) : s.Covered :=
  fun n hn => hd n (h.symm.trans hn)

theorem witness_DecodeOfEncodeIsTheCommand :
    (Instr.rdb 64).wellFormed = true ∧ (Instr.rdbu 0).wellFormed = true ∧
    (Instr.hsp 65535).wellFormed = true ∧ Instr.epf.wellFormed = true := by decide

theorem witness_LegalWordIsTheEncoding :
    decode 0x10000040 = .legal (.rdb 64) ∧ decode 0x6000FFFF = .legal (.hsp 65535) := by decide

theorem witness_LegalWordsExactly : ¬ ∃ i, decode (running 0 State.reset).cmd = .legal i := by
  rintro ⟨i, h⟩
  exact absurd (h.symm.trans (by decide : decode 0 = .illegal .reservedOpcode)) (by simp)

theorem witness_MatchMaskTableAgrees :
    ∃ r ∈ encodingRows, r.selects 0x10000040 = true ∧ r.mnemonic = "RDB" :=
  ⟨_, .head _, by decide⟩

theorem witness_StepRunsTheDecodedCommand :
    (let s := running 0x10000003 (cursorOn [0xA6, 0x40] 0)
     s.inFlight = true ∧ s.nextAgent = .sequencer ∧ decode s.cmd = .legal (.rdb 3)) ∧
    (Instr.rdb 3).wellFormed = true := by
  repeat' apply And.intro
  all_goals decide

theorem witness_RdbReadsTheField :
    (let s := cursorOn vBytes 8
     s.Inv ∧ s.pos.toNat + 64 ≤ 8 * s.len.toNat) ∧
    (let s := cursorOn vBytes 9
     s.Inv ∧ 8 * s.len.toNat < s.pos.toNat + 64) ∧
    (let s := cursorOn [0xA6, 0x40] 0
     s.bufByte 0 = 0xA6 ∧ s.bufByte 1 = 0x40 ∧ s.len = 2 ∧ s.pos = 0) := by
  repeat' apply And.intro
  all_goals decide

theorem witness_RdbReencodesToTheSameBits :
    let s := cursorOn vBytes 8
    (64 ≤ 64 ∧ s.pos.toNat + 64 ≤ 8 * s.len.toNat) ∧ (0 ≤ 64 ∧ s.pos.toNat + 0 ≤ 8 * s.len.toNat) := by
  repeat' apply And.intro
  all_goals decide

theorem witness_RdbuReadsOrIsUndefined :
    (let s := cursorOn [0xF0] 4
     s.Inv ∧ s.pos.toNat + 4 ≤ 8 * s.len.toNat) ∧
    (let s := cursorOn [0xF0] 5
     s.Inv ∧ 8 * s.len.toNat < s.pos.toNat + 4 ∧ s.params.overrun = .fault) ∧
    (let s := { cursorOn [0xF0] 5 with params := { small with overrun := .anyValue } }
     s.Inv ∧ 8 * s.len.toNat < s.pos.toNat + 4 ∧ s.params.overrun = .anyValue) ∧
    (let s := cursorOn [0xF0] 2
     s.bufByte 0 = 0xF0 ∧ s.len = 1 ∧ s.pos = 2) ∧
    (let s := cursorOn [0xF0] 6
     s.bufByte 0 = 0xF0 ∧ s.len = 1 ∧ s.pos = 6 ∧ s.params.overrun = .fault) := by
  repeat' apply And.intro
  all_goals decide

theorem witness_RdfReadsTheFlag :
    (let s := cursorOn [0xA6, 0x40] 15
     s.Inv ∧ s.pos.toNat < 8 * s.len.toNat) ∧
    (let s := cursorOn [0xA6, 0x40] 16
     s.Inv ∧ 8 * s.len.toNat ≤ s.pos.toNat) ∧
    (let s := cursorOn [0x80] 0
     s.bufByte 0 = 0x80 ∧ s.len = 1 ∧ s.pos = 0) ∧
    (let s := cursorOn [0x80] 1
     s.bufByte 0 = 0x80 ∧ s.len = 1 ∧ s.pos = 1) := by
  repeat' apply And.intro
  all_goals decide

theorem witness_HspReportsSpace :
    65535 ≤ 65535 ∧ (let s := cursorOn [0xA6, 0x40] 12
     s.len = 2 ∧ s.pos = 12) := by
  repeat' apply And.intro
  all_goals decide

theorem witness_HspGuardsUncheckedReads :
    let s := cursorOn [0xA6, 0x40] 12
    s.Inv ∧ (∀ m ∈ [3, 0, 1], m ≤ 64) ∧ [3, 0, 1].sum ≤ 4 ∧
      ∃ t, exec (.hsp 4) s = .next t ∧ t.val = 1 :=
  ⟨by decide, by decide, by decide, _, rfl, by decide⟩

theorem witness_CursorReadsOnlyItsBits :
    let s := cursorOn [0xA6, 0x40] 0
    let m := bytesAt 0 [0xA7, 0x41]
    m ≠ s.buf ∧ s.avail 7 = true ∧
      (∀ j, j < 7 → s.bitAt (s.pos.toNat + j) = ({ s with buf := m } : State).bitAt (s.pos.toNat + j)) ∧
      (∀ j, j < 1 → s.bitAt (s.pos.toNat + j) = ({ s with buf := m } : State).bitAt (s.pos.toNat + j)) ∧
      (∀ j, j < 0 → s.bitAt (s.pos.toNat + j) = ({ s with buf := m } : State).bitAt (s.pos.toNat + j)) := by
  repeat' apply And.intro
  all_goals decide

theorem witness_CursorReadsOnlyBelowLen :
    let s := cursorOn [0xA6, 0x40] 0
    let m := bytesAt 0 [0xA6, 0x40, 0x99]
    Instr.rdbu 16 ≠ .epf ∧ (∀ n, Instr.rdbu 16 = .rdbu n → s.avail n = true) ∧
      ∀ a, a < s.len.toNat → s.bufByte a = ({ s with buf := m, ibuf := m } : State).bufByte a :=
  ⟨by decide, fun n h => by injection h with h; subst h; decide, by decide⟩

theorem witness_BitstreamIsMsbFirst :
    let s := cursorOn [0x12, 0x34] 4
    s.bufByte 0 = 0x12 ∧ s.bufByte 1 = 0x34 ∧ s.len = 2 ∧ s.pos = 4 := by
  repeat' apply And.intro
  all_goals decide

theorem witness_ExpGolombCodesAreUnique :
    (encUE 5 <+: encUE 5) ∧
    (let s := cursorOn g7Bytes 0
     s.decodeUE = .read 4294967294 63 ∧ s.params.kMax = 31) := by
  repeat' apply And.intro
  all_goals decide +kernel

theorem witness_SignedMappingIsBijective :
    1 % 2 = 1 ∧ 0 % 2 = 0 ∧ (4294967294 : Nat) ≤ 2 ^ 32 - 2 := by decide

/-- k = 3 ends exactly at the end of the buffer; a truncated suffix; 31 zeros; 32 zeros; the example. -/
theorem witness_RdueReadsTheCode :
    (let s := cursorOn [0x0B] 1
     s.Inv ∧ 3 ≤ s.params.kMax ∧ (∀ j, j < 3 → s.bitAt (s.pos.toNat + j) = false) ∧
       s.bitAt (s.pos.toNat + 3) = true ∧ s.pos.toNat + 3 + 1 ≤ 8 * s.len.toNat ∧
       s.pos.toNat + 2 * 3 + 1 ≤ 8 * s.len.toNat) ∧
    (let s := cursorOn [0x01] 0
     s.Inv ∧ 7 ≤ s.params.kMax ∧ (∀ j, j < 7 → s.bitAt (s.pos.toNat + j) = false) ∧
       s.bitAt (s.pos.toNat + 7) = true ∧ s.pos.toNat + 7 + 1 ≤ 8 * s.len.toNat ∧
       8 * s.len.toNat < s.pos.toNat + 2 * 7 + 1) ∧
    (let s := cursorOn [0, 0, 0, 0] 1
     s.Inv ∧ 8 * s.len.toNat < s.pos.toNat + s.params.kMax + 1 ∧
       ∀ p, p < 8 * s.len.toNat → s.pos.toNat ≤ p → s.bitAt p = false) ∧
    (let s := cursorOn [0, 0, 0, 0] 0
     s.Inv ∧ s.pos.toNat + s.params.kMax + 1 ≤ 8 * s.len.toNat ∧
       ∀ j, j ≤ s.params.kMax → s.bitAt (s.pos.toNat + j) = false) ∧
    (∀ p ∈ [0, 1, 4, 7, 12], let s := cursorOn [0xA6, 0x40] (BitVec.ofNat 32 p)
     s.bufByte 0 = 0xA6 ∧ s.bufByte 1 = 0x40 ∧ s.len = 2 ∧ s.params.kMax = 31 ∧ s.pos.toNat = p) := by
  repeat' apply And.intro
  all_goals decide +kernel

theorem witness_RdseReadsTheSignedCode :
    (let s := cursorOn g7Bytes 0
     s.Inv ∧ s.decodeUE = .read 4294967294 63) ∧
    (let s := cursorOn [0x10] 0
     s.Inv ∧ s.decodeUE = .read 7 7) ∧
    (let s := cursorOn [0, 0, 0, 0] 0
     s.Inv ∧ s.decodeUE = .error .golombOverflow) ∧
    (∀ p ∈ [0, 1, 4, 7], let s := cursorOn [0xA6, 0x40] (BitVec.ofNat 32 p)
     s.bufByte 0 = 0xA6 ∧ s.bufByte 1 = 0x40 ∧ s.len = 2 ∧ s.params.kMax = 31 ∧ s.pos.toNat = p) := by
  repeat' apply And.intro
  all_goals decide +kernel

theorem witness_ExpGolombRoundTrips :
    let s := cursorOn [0x12] 0
    s.Inv ∧ (8 + 1).log2 ≤ s.params.kMax ∧ s.pos.toNat + 2 * (8 + 1).log2 + 1 ≤ 8 * s.len.toNat ∧
      s.bits s.pos.toNat (2 * (8 + 1).log2 + 1) = encUE 8 ∧ encSE (-4) = encUE 8 := by
  repeat' apply And.intro
  all_goals decide +kernel

theorem witness_ExpGolombReadsBoundedBits :
    let s := { cursorOn [0x40] 0 with params := { small with kMax := 1 } }
    let m := bytesAt 0 [0x5F]
    s.Inv ∧ m ≠ s.buf ∧ ∀ j, j < 2 * s.params.kMax + 1 →
      s.bitAt (s.pos.toNat + j) = ({ s with buf := m } : State).bitAt (s.pos.toNat + j) := by
  repeat' apply And.intro
  all_goals decide

theorem witness_RemovedBytesNeverOverlap :
    removedAt [0x00, 0x00, 0x03, 0x00, 0x00, 0x03] 2 = true ∧
    removedAt [0x00, 0x00, 0x03, 0x00, 0x00, 0x03] 5 = true := by decide

theorem witness_StreamingFilterAgrees : 2 ≤ ([0x00, 0x00] : List Byte).length := by decide

/-- The range that ends exactly at IBUF_BYTES, one byte more, the empty range there, the example, and an
input without a match. -/
theorem witness_EpfFiltersIntoBuf :
    (let s := filterOn [0, 0, 3] 1 15
     s.Inv ∧ s.arg0.toNat + s.arg1.toNat ≤ s.params.ibufBytes) ∧
    (let s := filterOn [0, 0, 3] 1 16
     s.Inv ∧ s.params.ibufBytes < s.arg0.toNat + s.arg1.toNat) ∧
    (let s := filterOn [0, 0, 3] 16 0
     s.Inv ∧ s.arg1 = 0 ∧ s.arg0.toNat = s.params.ibufBytes) ∧
    (let s := filterOn [0x01, 0x60, 0x00, 0x00, 0x03, 0x00, 0x90] 0 7
     s.Inv ∧ 7 ≤ s.params.ibufBytes ∧ s.arg0 = 0 ∧ s.arg1 = 7 ∧
       (List.range 7).map s.ibufByte = [0x01, 0x60, 0x00, 0x00, 0x03, 0x00, 0x90]) := by
  repeat' apply And.intro
  all_goals decide +kernel

theorem witness_EpfFiltersIntoBuf_noMatch : ∀ i, removedAt [0x00, 0x03] i = false := by
  intro i
  rcases i with _ | _ | i <;> simp [removedAt]

theorem witness_EpfOutputFits :
    let s := filterOn [0, 0, 3] 0 16
    s.Inv ∧ s.arg0.toNat + s.arg1.toNat ≤ s.params.ibufBytes := by
  repeat' apply And.intro
  all_goals decide

/-- For every clause, a covered command of its kind whose run gives a next state; an RDB that fails. -/
theorem witness_EachCommandRaisesOnlyItsCodes :
    ∀ w ∈ [(0 : Word), 0x10000040, 0x20000010, 0x30000000, 0x60000005, 0x40000000, 0x50000000, 0x70000000],
      let s := running w { cursorOn [0xA6, 0x40] 0 with arg0 := 16, arg1 := 1 }
      s.Covered ∧ ∃ t, s.runCommand = .next t := by
  intro w hw
  simp only [List.mem_cons, List.not_mem_nil, or_false] at hw
  rcases hw with rfl | rfl | rfl | rfl | rfl | rfl | rfl | rfl
  all_goals
    refine ⟨covered_of _ _ rfl ?_, _, rfl⟩
    intro n h
    cases h
  decide

theorem witness_EachCommandRaisesOnlyItsCodes_undefined :
    (let s := running 0x20000004 (cursorOn [0xF0] 5)
     decode s.cmd = .legal (.rdbu 4) ∧ 8 * s.len.toNat < s.pos.toNat + 4 ∧ s.params.overrun = .fault) ∧
    (let s := { running 0x20000004 (cursorOn [0xF0] 5) with params := { small with overrun := .anyValue } }
     decode s.cmd = .legal (.rdbu 4) ∧ 8 * s.len.toNat < s.pos.toNat + 4 ∧
       s.params.overrun = .anyValue) := by decide

theorem witness_AcceptanceLatchesTheInputs :
    (let s := cursorOn [0xA6] 0
     s.inReset = false ∧ s.busy = false ∧ s.selects s.params.base = true) ∧
    (running 0x10000003 (cursorOn [0xA6] 0)).inFlight = true ∧
    HostEvent.write 0x4000C 5 0xF ≠ .assertReset := by
  repeat' apply And.intro
  all_goals decide

/-- Each kind of illegal word, at the boundary of its range. -/
theorem witness_IllegalWordsCompleteAsIllegal :
    ((0x00000000 : Word).extractLsb' 28 4 = 0x0) ∧ 0x8 ≤ ((0x80000000 : Word).extractLsb' 28 4).toNat ∧
    (0x10010008 : Word).extractLsb' 16 12 ≠ 0 ∧
    ((0x10000041 : Word).extractLsb' 28 4 = 0x1 ∧ 64 < ((0x10000041 : Word).extractLsb' 0 16).toNat) ∧
    ((0x70000001 : Word).extractLsb' 28 4 = 0x7 ∧ (0x70000001 : Word).extractLsb' 0 16 ≠ 0) ∧
    (let s := running 0x10000041 (cursorOn [] 0)
     s.cmd = 0x10000041 ∧ s.len = 0) := by
  repeat' apply And.intro
  all_goals decide

theorem witness_ErrorsArePreciseAndAtomic :
    let s := running 0x10000040 (cursorOn [0xA6, 0x40] 0)
    s.Covered ∧ ∃ t, s.runCommand = .next t ∧ t.code ≠ 0 :=
  ⟨covered_of _ _ rfl (fun n h => by cases h), _, rfl, by decide⟩

theorem witness_CommandsChangeOnlyTheirRegisters :
    (∃ t, exec .epf (filterOn [0, 0, 3] 0 3) = .next t) ∧
    (∃ t, exec (.hsp 9) (cursorOn [0xA6] 0) = .next t) ∧
    (∃ t, exec (.rdbu 8) (cursorOn [0xA6] 0) = .next t) := ⟨⟨_, rfl⟩, ⟨_, rfl⟩, ⟨_, rfl⟩⟩

theorem witness_CommandInFlightCompletes :
    let s := { running 0x20000010 (cursorOn [0xA6, 0x40] 0) with
      host := [.write 0x4000C 5 0xF, .read 0x40004], turns := [.host, .host] }
    s.inFlight = true ∧ s.Covered ∧ ∀ e ∈ s.host, e ≠ .assertReset :=
  ⟨by decide, covered_of _ (.legal (.rdbu 16)) (by decide)
    (fun n h => by cases h; decide), by decide⟩

theorem witness_IrqIsEnableAndDone :
    (∃ t, (running 0x10000003 (cursorOn [0xA6] 0)).runCommand = .next t) ∧
    (let s := { cursorOn [0xA6] 0 with done := true }
     (s.hostEvent (.write 0x40008 1 0xF)).done = true) ∧
    (running 0x10000003 (cursorOn [0xA6] 0)).sequencerMove ≠ .next (running 0x10000003 (cursorOn [0xA6] 0)) ∧
    (0x2 : Word).getLsbD 1 = true :=
  ⟨⟨_, rfl⟩, by decide, fun h => by injection h with h; exact absurd (congrArg State.busy h) (by decide),
    by decide⟩

/-- An idle block that meets the invariant. -/
theorem witness_idle :
    let s := cursorOn [0xA6, 0x40] 0
    s.Inv ∧ s.params.Legal ∧ s.inReset = false ∧ s.busy = false ∧ s.turns = [] ∧ s.host = [] ∧
      4 ≤ s.params.ibufBytes := by
  repeat' apply And.intro
  all_goals decide

/-- A block with a command in flight that meets the invariant. -/
theorem witness_busy :
    let s := running 0x10000003 (cursorOn [0xA6, 0x40] 0)
    s.Inv ∧ s.inReset = false ∧ s.busy = true ∧ s.inFlight = true := by
  repeat' apply And.intro
  all_goals decide

theorem witness_RegistersReadBack :
    3 < 4 ∧ (cursorOn [0xA6] 0).inReset = false ∧ (cursorOn [0xA6] 0).busy = false := by
  repeat' apply And.intro
  all_goals decide

theorem witness_IdleRegisterWrites :
    (cursorOn [0xA6] 0).inReset = false ∧ (cursorOn [0xA6] 0).busy = false := by
  repeat' apply And.intro
  all_goals decide

/-- A step for each clause: an acceptance (with DONE pending), a completion (BUSY falls, DONE rises, CODE
changes), a reset of a running block, DONE written 1, OVR set, OVR written 1. -/
theorem witness_StatusBitsChangeOnlyAsStated :
    (let s := { cursorOn [0xA6] 0 with done := true, host := [.write 0x40000 0x10000003 0xF] }
     ∃ t, step s = .next t ∧ s.busy = false ∧ t.busy = true ∧ s.done = true ∧ t.done = false) ∧
    (let s := running 0x10000040 (cursorOn [0xA6] 0)
     ∃ t, step s = .next t ∧ s.busy = true ∧ t.busy = false ∧ s.done = false ∧ t.done = true ∧
       t.code ≠ s.code) ∧
    (let s := { running 0x10000040 (cursorOn [0xA6] 0) with
       ovr := true, code := 2, host := [.assertReset], turns := [.host] }
     ∃ t, step s = .next t ∧ s.busy = true ∧ t.busy = false ∧ s.ovr = true ∧ t.ovr = false ∧
       t.code ≠ s.code) ∧
    (let s := { cursorOn [0xA6] 0 with done := true, host := [.write 0x40004 0x2 0xF] }
     ∃ t, step s = .next t ∧ s.done = true ∧ t.done = false) ∧
    (let s := { running 0x10000040 (cursorOn [0xA6] 0) with host := [.write 0x4000C 5 0xF], turns := [.host] }
     ∃ t, step s = .next t ∧ s.ovr = false ∧ t.ovr = true) ∧
    (let s := { cursorOn [0xA6] 0 with ovr := true, host := [.write 0x40004 0x100 0xF] }
     ∃ t, step s = .next t ∧ s.ovr = true ∧ t.ovr = false) :=
  ⟨⟨_, rfl, by decide⟩, ⟨_, rfl, by decide⟩, ⟨_, rfl, by decide⟩, ⟨_, rfl, by decide⟩, ⟨_, rfl, by decide⟩,
    ⟨_, rfl, by decide⟩⟩

theorem witness_PositionBeyondTheBufferFailsEveryRead :
    let s := cursorOn [0xA6, 0x40] 17
    8 * s.len.toNat < s.pos.toNat ∧ s.params.overrun = .fault := by
  repeat' apply And.intro
  all_goals decide

theorem witness_LenNeverExceedsBuf :
    (let s := cursorOn [0xA6] 0
     s.Inv ∧ s.busy = false) ∧
    (let s := filterOn [0, 0, 3] 0 3
     s.Inv ∧ ∃ t, exec .epf s = .next t ∧ t.code = 0) ∧
    (Instr.rdf ≠ .epf ∧ ∃ t, exec .rdf (cursorOn [0xA6] 0) = .next t) ∧
    (let s := { cursorOn [0xA6] 0 with host := [.write 0x40010 1000 0xF] }
     s.Inv ∧ ∃ t, step s = .next t) :=
  ⟨by decide, ⟨by decide, _, rfl, by decide⟩, ⟨by decide, _, rfl⟩, ⟨by decide, _, rfl⟩⟩

theorem witness_ValChangesOnlyBySuccessOrReset :
    (let s := running 0x10000003 (cursorOn [0xA6] 0)
     s.params.overrun = .fault ∧ ∃ t, step s = .next t ∧ t.val ≠ s.val) ∧
    (let s := { cursorOn [0xA6] 0 with host := [.assertReset] }
     s.params.overrun = .fault ∧ ∃ t, step s = .next t ∧ t.val ≠ s.val) :=
  ⟨⟨by decide, _, rfl, by decide⟩, ⟨by decide, _, rfl, by decide⟩⟩

theorem witness_ConstantRegistersAreConstant :
    small.Legal ∧ Reg.bufSize ∈ [Reg.config, .ibufSize, .bufSize] ∧
    ∃ t, step (running 0x10000003 (cursorOn [0xA6] 0)) = .next t := ⟨by decide, by decide, _, rfl⟩

theorem witness_ReservedOffsetsReadZero :
    (∀ off ∈ [0x30, 0xFFFF], 0x30 ≤ off ∧ off < 0x10000) ∧
    (∀ off ∈ [0x30000, 0x3FFFF], 0x30000 ≤ off ∧ off < windowBytes) ∧
    (cursorOn [0xA6] 0).inReset = false := by
  repeat' apply And.intro
  all_goals decide

theorem witness_OnlyTheAlignedWindowIsAddressed :
    0x3FFFF < (cursorOn [] 0).params.base ∧ (cursorOn [] 0).params.base + 0x40000 ≤ 0x80000 ∧
    (cursorOn [] 0).params.Legal := by
  repeat' apply And.intro
  all_goals decide

theorem witness_PartialRegisterWriteIsIgnored :
    0xFFFF < 0x10000 ∧ (0x7 : BitVec 4) ≠ 0xF ∧ (cursorOn [] 0).inReset = false ∧
    (cursorOn [] 0).busy = false := by
  repeat' apply And.intro
  all_goals decide

theorem witness_WindowAccessIsLittleEndian :
    4 * 0x3FFF < 0x10000 ∧ (cursorOn [] 0).inReset = false ∧ (cursorOn [] 0).busy = false ∧
    4 ≤ (cursorOn [] 0).params.ibufBytes := by
  repeat' apply And.intro
  all_goals decide

theorem witness_BusyWritesAreDropped :
    (let s := running 0x10000003 (cursorOn [0xA6] 0)
     s.inReset = false ∧ s.busy = true) ∧
    (∀ off ∈ [0x10000, 0x2FFFF], 0x10000 ≤ off ∧ off < 0x30000) := by
  repeat' apply And.intro
  all_goals decide

theorem witness_BusyReadsReturnAnyValue :
    (let s := running 0x10000003 (cursorOn [0xA6] 0)
     s.inReset = false ∧ s.busy = true) ∧
    (let s := cursorOn [0xA6] 0
     s.inReset = false ∧ s.busy = false) ∧
    (∀ off ∈ [0x20000, 0x2FFFF], 0x20000 ≤ off ∧ off < 0x30000) ∧
    (∀ off ∈ [0x10000, 0x1FFFF], 0x10000 ≤ off ∧ off < 0x20000) := by
  repeat' apply And.intro
  all_goals decide

theorem witness_StoreLinesStoreTheirBytes :
    let s := cursorOn [0xA6] 0
    s.params.Legal ∧ s.inReset = false ∧ s.busy = false ∧
      14 + ([0x11, 0x22] : List Byte).length ≤ s.params.ibufBytes ∧
      30 + ([0x11, 0x22] : List Byte).length ≤ s.params.bufBytes := by
  repeat' apply And.intro
  all_goals decide

theorem witness_CommandLineRunsItsCommand :
    let s := { cursorOn [0xA6] 0 with host := [.write 0x40000 0x10000003 0xF, .wait, .read 0x40014] }
    (Instr.rdb 3).wellFormed = true ∧ s.inReset = false ∧ s.busy = false ∧ s.turns = [] ∧
      s.host = (HostLine.command (.rdb 3)).expand s.params.base ++ [.read 0x40014] ∧
      ∃ u, exec (.rdb 3) { s with cmd := encode (.rdb 3), busy := true, done := false,
                                  host := .wait :: [.read 0x40014] } = .next u :=
  ⟨by decide, by decide, by decide, by decide, by decide, _, rfl⟩

theorem witness_ResetAbandonsTheCommand :
    let s := { State.resetWith small with inReset := true }
    s.Inv ∧ s.inReset = true ∧ s.selects 0x7FFFF = true := by
  repeat' apply And.intro
  all_goals decide

theorem witness_ReadsBeforeLoadingFail :
    State.reset.len = 0 ∧ State.reset.pos = 0 ∧ 1 ≤ 1 := by decide

theorem witness_SavedPositionRereads :
    let s := cursorOn [0xA6, 0x40] 0
    Instr.rdbu 16 ≠ .epf ∧ (∀ n, Instr.rdbu 16 = .rdbu n → s.avail n = true) ∧
      ∃ t, exec (.rdbu 16) s = .next t ∧ t.pos ≠ s.pos :=
  ⟨by decide, fun n h => by injection h with h; subst h; decide, _, rfl, by decide⟩

theorem witness_ResetMeetsTheInvariant :
    (⟨1, 1, 0, 0, .fault⟩ : Params).Legal ∧ (⟨65536, 65536, 63, 0x40000, .anyValue⟩ : Params).Legal := by
  repeat' apply And.intro
  all_goals decide

theorem witness_EveryStepKeepsTheInvariant :
    (let s := running 0x70000000 (filterOn [0, 0, 3] 0 3)
     s.Inv ∧ ∃ t, step s = .next t) ∧
    (let s := { cursorOn [0xA6] 0 with host := [.write 0x60004 0x12345678 0x5] }
     s.Inv ∧ ∃ t, step s = .next t) := ⟨⟨by decide, _, rfl⟩, ⟨by decide, _, rfl⟩⟩

theorem witness_OnlyAnUncoveredUncheckedReadStops :
    (let s := running 0x20000004 (cursorOn [0xF0] 5)
     s.nextAgent = .sequencer ∧ s.inFlight = true ∧ s.params.overrun = .fault ∧
       ∃ n, decode s.cmd = .legal (.rdbu n) ∧ 8 * s.len.toNat < s.pos.toNat + n) ∧
    (running 0x20000004 (cursorOn [0xF0] 4)).Covered :=
  ⟨⟨by decide, by decide, by decide, 4, by decide⟩, covered_of _ (.legal (.rdbu 4)) (by decide)
    (fun n h => by cases h; decide)⟩

/-- An idle block with nothing to come, with turns listed and with none. -/
theorem witness_IdleBlockKeepsItsState :
    (let s := { cursorOn [0xA6] 0 with turns := [.sequencer, .host] }
     s.busy = false ∧ s.host = []) ∧
    (let s := cursorOn [0xA6] 0
     s.busy = false ∧ s.host = [] ∧ s.turns = []) := by decide

end Sys2Proof.Tests
end

section
/-! The invariant of Safety.lean, kept by every step (O57): first by each update of the state that a command
or the host makes, then by each command and each host event, then by the step. A rule with the premise
`s.inReset = false` writes a register that R101 holds at its reset value while reset is asserted. -/

namespace Sys2Proof.Machine

variable {s t : State}

/-! ### What each update of the state keeps -/

/-- With reset released the invariant says nothing of these registers. -/
theorem State.Inv.setFreeRegisters (h : s.Inv) (hr : s.inReset = false) (cmd : Word) (ovr ie : Bool)
    (pos : Word) (val : DWord) (arg0 arg1 : Word) :
    ({ s with cmd := cmd, ovr := ovr, ie := ie, pos := pos, val := val, arg0 := arg0, arg1 := arg1 } :
      State).Inv := by
  obtain ⟨hp, hl, hiw, hi, hbw, hb, hd, hc, -⟩ := h
  exact ⟨hp, hl, hiw, hi, hbw, hb, hd, hc, by simp [hr]⟩

theorem State.Inv.setLen (h : s.Inv) (hr : s.inReset = false) {len : Word}
    (hlen : len.toNat ≤ s.params.bufBytes) : ({ s with len := len } : State).Inv := by
  obtain ⟨hp, -, hiw, hi, hbw, hb, hd, hc, -⟩ := h
  exact ⟨hp, hlen, hiw, hi, hbw, hb, hd, hc, by simp [hr]⟩

theorem State.Inv.setBusyDone (h : s.Inv) (hr : s.inReset = false) {busy done : Bool}
    (hbd : busy = true → done = false) : ({ s with busy := busy, done := done } : State).Inv := by
  obtain ⟨hp, hl, hiw, hi, hbw, hb, -, hc, -⟩ := h
  exact ⟨hp, hl, hiw, hi, hbw, hb, hbd, hc, by simp [hr]⟩

theorem State.Inv.setCode (h : s.Inv) (hr : s.inReset = false) {c : BitVec 4}
    (hcode : s.params.overrun = .fault → c.toNat ≤ 4) : ({ s with code := c } : State).Inv := by
  obtain ⟨hp, hl, hiw, hi, hbw, hb, hd, -, -⟩ := h
  exact ⟨hp, hl, hiw, hi, hbw, hb, hd, hcode, by simp [hr]⟩

theorem State.Inv.setIbuf (h : s.Inv) {m : Memory} (hw : m.wf) (hm : m.within s.params.ibufBytes) :
    ({ s with ibuf := m } : State).Inv := by
  obtain ⟨hp, hl, -, -, hbw, hb, hd, hc, hreset⟩ := h
  exact ⟨hp, hl, hw, hm, hbw, hb, hd, hc, hreset⟩

theorem State.Inv.setBuf (h : s.Inv) {m : Memory} (hw : m.wf) (hm : m.within s.params.bufBytes) :
    ({ s with buf := m } : State).Inv := by
  obtain ⟨hp, hl, hiw, hi, -, -, hd, hc, hreset⟩ := h
  exact ⟨hp, hl, hiw, hi, hw, hm, hd, hc, hreset⟩

/-- The fields that are the model's own book-keeping do not enter the invariant. -/
theorem State.Inv.setBookkeeping (h : s.Inv) (draws : Nat) (host : List HostEvent) (turns : List Agent)
    (reads : List Word) :
    ({ s with draws := draws, host := host, turns := turns, reads := reads } : State).Inv := h

theorem State.Inv.complete (h : s.Inv) (hr : s.inReset = false) {c : BitVec 4}
    (hcode : s.params.overrun = .fault → c.toNat ≤ 4) : (s.complete c).Inv :=
  (h.setCode hr hcode).setBusyDone hr (by simp)

theorem State.Inv.completeOk (h : s.Inv) (hr : s.inReset = false) : s.completeOk.Inv :=
  h.complete hr fun _ => by decide

theorem State.Inv.accept (h : s.Inv) (hr : s.inReset = false) (w : Word) : (s.accept w).Inv :=
  (h.setFreeRegisters hr w _ _ _ _ _ _).setBusyDone hr fun _ => rfl

theorem State.Inv.assertReset (h : s.Inv) : s.assertReset.Inv := by
  obtain ⟨hp, -⟩ := h
  simpa [State.Inv, State.RegistersReset] using hp

theorem State.Inv.releaseReset (h : s.Inv) : s.releaseReset.Inv := by
  obtain ⟨hp, hl, hiw, hi, hbw, hb, hd, hc, -⟩ := h
  exact ⟨hp, hl, hiw, hi, hbw, hb, hd, hc, by simp⟩

/-! ### What a command keeps -/

/-- No result is a reserved code (60_exceptions.md R86). -/
theorem ResultCode.toBits_le (e : ResultCode) : e.toBits.toNat ≤ 4 := by cases e <;> decide

/-- The undefined case of RDBU has a next state only where it may continue with any values (U1). -/
theorem State.uncheckedOverrun_eq_next (h : s.uncheckedOverrun = .next t) :
    s.params.overrun = .anyValue ∧
      t = (({ s with val := Config.freeVal s.draws, pos := Config.freePos s.draws } : State).complete
        (Config.freeCode s.draws)).drawn := by
  unfold State.uncheckedOverrun at h
  split at h <;> cases h
  exact ⟨‹_›, rfl⟩

theorem State.Inv.commitRead (h : s.Inv) (hr : s.inReset = false) (v : DWord) (p : Nat) :
    (s.commitRead v p).Inv :=
  (h.setFreeRegisters hr _ _ _ (BitVec.ofNat 32 p) v _ _).completeOk hr

/-- EPF's output is no longer than its source, which lies in IBUF, and IBUF is no larger than BUF (R6, R81). -/
theorem State.Inv.epfFilter_source_length_le (h : s.Inv) (hs : s.sourceInRange = true) :
    (epfFilter s.source).length ≤ s.params.bufBytes := by
  obtain ⟨⟨-, hle, -⟩, -⟩ := h
  calc (epfFilter s.source).length
      ≤ s.arg1.toNat := s.source_length ▸ epfFilter_length_le s.source
    _ ≤ s.arg0.toNat + s.arg1.toNat := Nat.le_add_left ..
    _ ≤ s.params.ibufBytes := s.sourceInRange_iff.1 hs
    _ ≤ s.params.bufBytes := hle

theorem State.Inv.filtered (h : s.Inv) (hr : s.inReset = false) (hs : s.sourceInRange = true) :
    s.filtered.Inv := by
  have hlen := h.epfFilter_source_length_le hs
  have ⟨_, _, _, _, hbw, hb, _⟩ := h
  have hbuf := h.setBuf (Memory.writeAll_wf hbw 0 (epfFilter s.source))
    (Memory.writeAll_within hb 0 _ (by omega))
  have hbufLen := hbuf.setLen hr (len := BitVec.ofNat 32 (epfFilter s.source).length)
    ((Nat.mod_le _ _).trans hlen)
  exact (hbufLen.setFreeRegisters hr _ _ _ 0 _ _ _).completeOk hr

theorem State.Inv.uncheckedOverrun (h : s.Inv) (hr : s.inReset = false)
    (ht : s.uncheckedOverrun = .next t) : t.Inv := by
  obtain ⟨hany, rfl⟩ := State.uncheckedOverrun_eq_next ht
  have hread := h.setFreeRegisters hr s.cmd s.ovr s.ie (Config.freePos s.draws)
    (Config.freeVal s.draws) s.arg0 s.arg1
  exact (hread.complete hr fun hfault => by simp [hany] at hfault).setBookkeeping (s.draws + 1) _ _ _

theorem State.Inv.exec {i : Instr} (h : s.Inv) (hr : s.inReset = false)
    (ht : Machine.exec i s = .next t) : t.Inv := by
  rcases exec_cases i s with ⟨e, -, he⟩ | ⟨v, p, -, -, -, he⟩ | ⟨n, v, -, he⟩ | ⟨-, hs, he⟩ |
    ⟨n, -, -, he⟩ <;> rw [he] at ht
  · cases ht
    exact h.complete hr fun _ => e.toBits_le
  · cases ht
    exact h.commitRead hr v p
  · cases ht
    exact (h.setFreeRegisters hr _ _ _ _ v _ _).completeOk hr
  · cases ht
    exact h.filtered hr hs
  · exact h.uncheckedOverrun hr ht

theorem State.Inv.runCommand (h : s.Inv) (hr : s.inReset = false) (ht : s.runCommand = .next t) :
    t.Inv := by
  rcases s.runCommand_cases with ⟨i, -, he⟩ | ⟨why, -, he⟩ <;> rw [he] at ht
  · exact h.exec hr ht
  · cases ht
    exact h.complete hr fun _ => by decide

/-! ### What a host event keeps -/

/-- The legalised LEN is at most BUF_BYTES (10_state.md R24). -/
theorem legalLen_toNat_le (p : Params) (v : Word) : (legalLen p v).toNat ≤ p.bufBytes :=
  (Nat.mod_le _ _).trans (min_le_right _ _)

theorem State.Inv.written {d : Word} {be : BitVec 4} {tg : Target} (h : s.Inv) (hr : s.inReset = false)
    (hw : State.Written s d be tg t) : t.Inv := by
  have ⟨_, _, hiw, hi, hbw, hb, hd, _⟩ := h
  cases hw with
  | ignored => exact h
  | dropped => exact h.setFreeRegisters hr ..
  | status =>
    exact (h.setFreeRegisters hr _ (s.ovr && !d.getLsbD 8) _ _ _ _ _).setBusyDone hr
      fun hbusy => by simp [hd hbusy]
  | ctrl => exact h.setFreeRegisters hr ..
  | accepted => exact h.accept hr d
  | pos => exact h.setFreeRegisters hr ..
  | len => exact h.setLen hr (legalLen_toNat_le s.params d)
  | arg0 => exact h.setFreeRegisters hr ..
  | arg1 => exact h.setFreeRegisters hr ..
  | ibuf _ i => exact h.setIbuf (writeLanes_wf hiw ..) (writeLanes_within hi i d be)
  | buf _ i => exact h.setBuf (writeLanes_wf hbw ..) (writeLanes_within hb i d be)

theorem State.Inv.hostEvent (h : s.Inv) (e : HostEvent) : (s.hostEvent e).Inv := by
  have he := s.happened_hostEvent e
  generalize s.hostEvent e = t at he
  cases he with
  | other => exact h
  | seen => exact h.setBookkeeping ..
  | write addr d be _ _ hr hw => exact h.written hr hw
  | assertReset => exact h.assertReset
  | releaseReset => exact h.releaseReset

/-! ### The step -/

theorem State.inFlight_iff (s : State) : s.inFlight = true ↔ s.busy = true ∧ s.inReset = false := by
  simp [State.inFlight]

theorem State.Inv.step (h : s.Inv) (ht : Machine.step s = .next t) : t.Inv := by
  have hturn : s.takeTurn.Inv := h.setBookkeeping _ _ s.turns.tail _
  rcases step_cases s with ⟨-, hf, he⟩ | ⟨-, -, he⟩ | ⟨-, -, he⟩ | ⟨-, e, es, -, he⟩ <;> rw [he] at ht
  · obtain ⟨-, hr⟩ := s.inFlight_iff.1 hf
    exact hturn.runCommand hr ht
  · cases ht
    exact hturn
  · cases ht
    exact hturn
  · cases ht
    exact (hturn.setBookkeeping _ es _ _).hostEvent e

/-- Settles O57: each agent's move keeps the invariant, by the inversion lemmas of the step, the commands and
the host events. -/
theorem everyStepKeepsTheInvariant : Obligations.EveryStepKeepsTheInvariant :=
  fun _ _ h ht => h.step ht

end Sys2Proof.Machine
end

section
/-! What a command may change (O34): its next states as an inductive relation, the frame that all of them share,
and what is kept by each kind of command. -/

namespace Sys2Proof.Machine

variable {s t : State} {i : Instr}

/-- The next states a command can have (`exec_cases`, with RDBU's undefined case where it continues, U1). -/
inductive State.Executed (s : State) : Instr → State → Prop where
  | raised (i : Instr) (e : ResultCode) (he : e ≠ .ok) : Executed s i (s.complete e.toBits)
  | read (i : Instr) (v : DWord) (p : Nat) (hepf : i ≠ .epf) (hhsp : ∀ n, i ≠ .hsp n) :
      Executed s i (s.commitRead v p)
  | space (n : Nat) (v : DWord) : Executed s (.hsp n) ({ s with val := v } : State).completeOk
  | filtered (h : s.sourceInRange = true) : Executed s .epf s.filtered
  | overrun (n : Nat) (h : s.params.overrun = .anyValue) : Executed s (.rdbu n)
      (({ s with val := Config.freeVal s.draws, pos := Config.freePos s.draws } : State).complete
        (Config.freeCode s.draws)).drawn

/-- The inversion lemma of the commands' next states: later proofs cite it and never unfold `exec`. -/
theorem executed_of_exec (h : exec i s = .next t) : State.Executed s i t := by
  rcases exec_cases i s with ⟨e, he, hx⟩ | ⟨v, p, hepf, hhsp, -, hx⟩ | ⟨n, v, rfl, hx⟩ | ⟨rfl, hs, hx⟩ |
    ⟨n, rfl, -, hx⟩ <;> rw [hx] at h
  · cases h
    exact .raised i e he
  · cases h
    exact .read i v p hepf hhsp
  · cases h
    exact .space n v
  · cases h
    exact .filtered hs
  · obtain ⟨hany, rfl⟩ := State.uncheckedOverrun_eq_next h
    exact .overrun n hany

/-- What no command changes (10_state.md R17, R23 to R31). -/
structure State.CommandFrame (s t : State) : Prop where
  params : t.params = s.params
  cmd : t.cmd = s.cmd
  ovr : t.ovr = s.ovr
  ie : t.ie = s.ie
  arg0 : t.arg0 = s.arg0
  arg1 : t.arg1 = s.arg1
  ibuf : t.ibuf = s.ibuf
  inReset : t.inReset = s.inReset
  memDraw : t.memDraw = s.memDraw
  host : t.host = s.host
  turns : t.turns = s.turns
  reads : t.reads = s.reads

theorem State.Executed.commandFrame (h : State.Executed s i t) : State.CommandFrame s t := by
  cases h <;> constructor <;> rfl

/-- Only EPF writes LEN and BUF (10_state.md R24, R31). -/
theorem State.Executed.keeps_len_buf (h : State.Executed s i t) (hi : i ≠ .epf) :
    t.len = s.len ∧ t.buf = s.buf := by
  cases h with
  | filtered => exact absurd rfl hi
  | raised => exact ⟨rfl, rfl⟩
  | read => exact ⟨rfl, rfl⟩
  | space => exact ⟨rfl, rfl⟩
  | overrun => exact ⟨rfl, rfl⟩

/-- EPF keeps VAL, and every byte of BUF from its output length on (42_emulation_prevention.md R79). -/
theorem State.Executed.epf_keeps (h : State.Executed s .epf t) :
    t.val = s.val ∧ ∀ a, (epfFilter s.source).length ≤ a → t.bufByte a = s.bufByte a := by
  cases h with
  | raised => exact ⟨rfl, fun _ _ => rfl⟩
  | read _ _ _ hepf => exact absurd rfl hepf
  | filtered =>
    exact ⟨rfl, fun a ha => (s.bufByte_writeAll (epfFilter s.source) a).trans (dif_neg (by omega))⟩

/-- HSP does not write POS (40_bit_cursor.md R66). -/
theorem State.Executed.hsp_keeps_pos {n : Nat} (h : State.Executed s (.hsp n) t) : t.pos = s.pos := by
  cases h with
  | raised => rfl
  | read _ _ _ _ hhsp => exact absurd rfl (hhsp n)
  | space => rfl

theorem State.ibufByte_congr (hm : t.ibuf = s.ibuf) (hd : t.memDraw = s.memDraw) (a : Nat) :
    t.ibufByte a = s.ibufByte a := by
  simp only [State.ibufByte, hm, hd]

theorem State.bufByte_congr (hm : t.buf = s.buf) (hd : t.memDraw = s.memDraw) (a : Nat) :
    t.bufByte a = s.bufByte a := by
  simp only [State.bufByte, hm, hd]

/-- Settles O34: the frame shared by all commands, then each kind of command's own, from the inversion lemma of
the commands' next states. -/
theorem commandsChangeOnlyTheirRegisters : Obligations.CommandsChangeOnlyTheirRegisters := by
  intro i s t h
  have hx := executed_of_exec h
  have hf := hx.commandFrame
  refine ⟨hf.params, hf.cmd, hf.ovr, hf.ie, hf.arg0, hf.arg1, hf.inReset, hf.memDraw, hf.host, hf.turns,
    hf.reads, State.ibufByte_congr hf.ibuf hf.memDraw, fun hi => ?_, ?_, ?_⟩
  · obtain ⟨hlen, hbuf⟩ := hx.keeps_len_buf hi
    exact ⟨hlen, State.bufByte_congr hbuf hf.memDraw⟩
  · rintro rfl
    exact hx.epf_keeps
  · rintro n rfl
    exact hx.hsp_keeps_pos

end Sys2Proof.Machine
end

section
/-! The cursor commands and the end of the buffer: they read no byte at or above LEN (O14), and from a position
beyond the end every checked read fails (O40). -/

namespace Sys2Proof.Machine

variable {s : State}

/-- `s` with other contents of BUF and IBUF. -/
abbrev State.withMemories (s : State) (m m' : Memory) : State := { s with buf := m, ibuf := m' }

/-- The contents `m` of BUF agree with those of `s` below LEN. -/
def State.AgreesBelowLen (s : State) (m m' : Memory) : Prop :=
  ∀ a, a < s.len.toNat → s.bufByte a = (s.withMemories m m').bufByte a

variable {m m' : Memory}

/-- A bit of the buffer lies in a byte below LEN (00_scope.md R11). -/
theorem State.AgreesBelowLen.bitAt (h : s.AgreesBelowLen m m') {p : Nat} (hp : p < s.bitLen) :
    s.bitAt p = (s.withMemories m m').bitAt p := by
  unfold State.bitLen at hp
  simp only [State.bitAt, h (p / 8) (by omega)]

theorem State.AgreesBelowLen.readFixed (h : s.AgreesBelowLen m m') {n : Nat} (hn : s.avail n = true) :
    (s.withMemories m m').readFixed n = (s.readFixed n).withMemories m m' := by
  have hp : s.pos.toNat + n ≤ s.bitLen := (s.avail_iff n).1 hn
  have hbits : s.bits s.pos.toNat n = (s.withMemories m m').bits s.pos.toNat n :=
    State.bits_congr fun j hj => h.bitAt (by omega)
  simp only [State.readFixed, State.field, ← hbits]
  rfl

theorem State.AgreesBelowLen.decodeUE (h : s.AgreesBelowLen m m') :
    s.decodeUE = (s.withMemories m m').decodeUE :=
  State.decodeUE_congr rfl rfl rfl fun _ _ hp => h.bitAt hp

/-- The command `i` has one result on `s` whatever the memories `m` and `m'` hold in place of its own. -/
def State.SameResultWith (s : State) (m m' : Memory) (i : Instr) : Prop :=
  ∃ t, exec i s = .next t ∧ exec i (s.withMemories m m') = .next (t.withMemories m m')

theorem State.AgreesBelowLen.rdb (h : s.AgreesBelowLen m m') (n : Nat) : s.SameResultWith m m' (.rdb n) := by
  cases hn : s.avail n
  · exact ⟨_, exec_rdb_of_short hn, exec_rdb_of_short (s := s.withMemories m m') hn⟩
  · refine ⟨_, exec_rdb_of_avail hn, ?_⟩
    rw [exec_rdb_of_avail (s := s.withMemories m m') hn, h.readFixed hn]

theorem State.AgreesBelowLen.rdbu (h : s.AgreesBelowLen m m') {n : Nat} (hn : s.avail n = true) :
    s.SameResultWith m m' (.rdbu n) := by
  refine ⟨_, exec_rdbu_of_avail hn, ?_⟩
  rw [exec_rdbu_of_avail (s := s.withMemories m m') hn, h.readFixed hn]

theorem State.AgreesBelowLen.rdf (h : s.AgreesBelowLen m m') : s.SameResultWith m m' .rdf := by
  simpa only [State.SameResultWith, exec_rdf_eq_rdb] using h.rdb 1

theorem State.AgreesBelowLen.rdue (h : s.AgreesBelowLen m m') : s.SameResultWith m m' .rdue := by
  cases hd : s.decodeUE with
  | error e => exact ⟨_, exec_rdue_of_error hd, exec_rdue_of_error (h.decodeUE ▸ hd)⟩
  | read v p => exact ⟨_, exec_rdue_of_read hd, exec_rdue_of_read (h.decodeUE ▸ hd)⟩

theorem State.AgreesBelowLen.rdse (h : s.AgreesBelowLen m m') : s.SameResultWith m m' .rdse := by
  cases hd : s.decodeUE with
  | error e => exact ⟨_, exec_rdse_of_error hd, exec_rdse_of_error (h.decodeUE ▸ hd)⟩
  | read v p => exact ⟨_, exec_rdse_of_read hd, exec_rdse_of_read (h.decodeUE ▸ hd)⟩

/-- Settles O14: command by command, each bit read lies below LEN. -/
theorem cursorReadsOnlyBelowLen : Obligations.CursorReadsOnlyBelowLen := by
  intro s m m' i hepf hrdbu h
  have hlow : s.AgreesBelowLen m m' := h
  cases i with
  | rdb n => exact hlow.rdb n
  | rdbu n => exact hlow.rdbu (hrdbu n rfl)
  | rdf => exact hlow.rdf
  | rdue => exact hlow.rdue
  | rdse => exact hlow.rdse
  | hsp n => exact ⟨_, exec_hsp_eq s n, exec_hsp_eq (s.withMemories m m') n⟩
  | epf => exact absurd rfl hepf

/-- Beyond the end of the buffer not even 0 bits are available (10_state.md R23). -/
theorem State.avail_of_beyond (h : 8 * s.len.toNat < s.pos.toNat) (n : Nat) : s.avail n = false :=
  (s.not_avail_iff n).2 (by omega)

/-- From the end of the buffer on, `DecodeUE` finds no bit (41_exp_golomb.md R70). -/
theorem State.decodeUE_of_noBits (h : s.bitLen ≤ s.pos.toNat) : s.decodeUE = .error .insufficientBits := by
  rcases s.decodeUE_cases with ⟨k, -, -, -, hl, -⟩ | ⟨-, -, he⟩ | ⟨hl, -, -⟩
  · omega
  · exact he
  · omega

/-- Settles O40: no count of bits is available there, and no code begins. -/
theorem positionBeyondTheBufferFailsEveryRead : Obligations.PositionBeyondTheBufferFailsEveryRead := by
  intro s n h
  have havail := State.avail_of_beyond h
  have hdecode : s.decodeUE = .error .insufficientBits := State.decodeUE_of_noBits h.le
  refine ⟨exec_rdb_of_short (havail n), exec_rdf_of_short (havail 1), exec_rdue_of_error hdecode,
    exec_rdse_of_error hdecode, ?_, fun hfault => ?_⟩
  · rw [exec_hsp_eq, havail n]
    rfl
  · rw [exec_rdbu_of_short (havail n), State.uncheckedOverrun, hfault]

end Sys2Proof.Machine
end

section
/-! What can change the status bits (O39), LEN (O41) and VAL (O42): by the inversion lemmas of the step, the
commands and the host events. -/

namespace Sys2Proof.Machine

variable {s t : State}

/-- `s` with its coming turn and its host's coming event taken, `es` the events left. -/
abbrev State.takeEvent (s : State) (es : List HostEvent) : State := { s.takeTurn with host := es }

/-- A step that gives a next state completes the command in flight, changes nothing but the turns, or performs
the host's next event. -/
theorem step_next_cases (h : step s = .next t) :
    (s.Completes ∧ s.takeTurn.runCommand = .next t) ∨ t = s.takeTurn ∨
    (s.nextAgent = .host ∧ ∃ e es, s.host = e :: es ∧ State.Happened (s.takeEvent es) e t) := by
  rcases step_cases s with ⟨ha, hf, hs⟩ | ⟨-, -, hs⟩ | ⟨-, -, hs⟩ | ⟨ha, e, es, he, hs⟩ <;> rw [hs] at h
  · exact .inl ⟨⟨ha, hf⟩, h⟩
  · cases h
    exact .inr (.inl rfl)
  · cases h
    exact .inr (.inl rfl)
  · cases h
    exact .inr (.inr ⟨ha, e, es, he, State.happened_hostEvent ..⟩)

/-! ### The status bits -/

/-- How a step treats BUSY, DONE, CODE and OVR (10_state.md R21). -/
inductive State.StatusStep (s t : State) : Prop where
  | kept (hbusy : t.busy = s.busy) (hdone : t.done = s.done) (hcode : t.code = s.code) (hovr : t.ovr = s.ovr)
  | completed (h : s.Completes) (hbusy : t.busy = false) (hdone : t.done = true) (hovr : t.ovr = s.ovr)
  | reset (h : s.HostResets) (hbusy : t.busy = false) (hdone : t.done = false) (hovr : t.ovr = false)
  | accepted (h : s.HostWrites (.reg .cmd) t.cmd 0xF) (hidle : s.busy = false) (hbusy : t.busy = true)
      (hdone : t.done = false) (hcode : t.code = s.code) (hovr : t.ovr = s.ovr)
  | cleared (d : Word) (h : s.HostWrites (.reg .status) d 0xF) (hbusy : t.busy = s.busy)
      (hdone : t.done = (s.done && !d.getLsbD 1)) (hcode : t.code = s.code)
      (hovr : t.ovr = (s.ovr && !d.getLsbD 8))
  | dropped (tg : Target) (d : Word) (be : BitVec 4) (h : s.HostWrites tg d be)
      (htg : tg.DroppedWhileBusy be) (hrunning : s.busy = true) (hbusy : t.busy = s.busy)
      (hdone : t.done = s.done) (hcode : t.code = s.code) (hovr : t.ovr = true)

/-- A host write to the target `tg`, whose next state is `t` (20_memory.md R41, R42). -/
theorem State.Written.statusStep {es : List HostEvent} {tg : Target} {d : Word} {be : BitVec 4}
    (hw : State.Written (s.takeEvent es) d be tg t) (h : s.HostWrites tg d be) : State.StatusStep s t := by
  cases hw with
  | dropped _ hb ht => exact .dropped tg d be h ht hb rfl rfl rfl rfl
  | status hbe => exact .cleared d (hbe ▸ h) rfl rfl rfl rfl
  | accepted hb hbe => exact .accepted (hbe ▸ h) hb rfl rfl rfl rfl
  | _ => exact .kept rfl rfl rfl rfl

theorem State.Happened.statusStep {e : HostEvent} {es : List HostEvent}
    (h : State.Happened (s.takeEvent es) e t) (ha : s.nextAgent = .host) (he : s.host = e :: es) :
    State.StatusStep s t := by
  cases h with
  | other => exact .kept rfl rfl rfl rfl
  | seen => exact .kept rfl rfl rfl rfl
  | write addr d be _ hs hr hw => exact hw.statusStep ⟨ha, hr, addr, es, he, hs, rfl⟩
  | assertReset => exact .reset ⟨ha, es, he⟩ rfl rfl rfl
  | releaseReset => exact .kept rfl rfl rfl rfl

theorem statusStep_of_step (h : step s = .next t) : State.StatusStep s t := by
  rcases step_next_cases h with ⟨hc, hr⟩ | rfl | ⟨ha, e, es, he, hh⟩
  · obtain ⟨hbusy, hdone, hovr⟩ := State.runCommand_ends hr
    exact .completed hc hbusy hdone hovr
  · exact .kept rfl rfl rfl rfl
  · exact hh.statusStep ha he

theorem State.StatusStep.busy_rises (h : State.StatusStep s t) (hs : s.busy = false) (ht : t.busy = true) :
    s.HostWrites (.reg .cmd) t.cmd 0xF ∧ t.done = false ∧ t.code = s.code ∧ t.ovr = s.ovr := by
  cases h with
  | accepted h _ _ hdone hcode hovr => exact ⟨h, hdone, hcode, hovr⟩
  | _ => simp_all

theorem State.StatusStep.busy_falls (h : State.StatusStep s t) (hs : s.busy = true) (ht : t.busy = false) :
    (s.Completes ∧ t.done = true) ∨ s.HostResets := by
  cases h with
  | completed h _ hdone => exact .inl ⟨h, hdone⟩
  | reset h => exact .inr h
  | _ => simp_all

theorem State.StatusStep.done_rises (h : State.StatusStep s t) (hs : s.done = false) (ht : t.done = true) :
    s.Completes ∧ t.busy = false := by
  cases h with
  | completed h hbusy => exact ⟨h, hbusy⟩
  | _ => simp_all

theorem State.StatusStep.done_falls (h : State.StatusStep s t) (hs : s.done = true) (ht : t.done = false) :
    (s.HostWrites (.reg .cmd) t.cmd 0xF ∧ s.busy = false ∧ t.busy = true) ∨
    (∃ d, s.HostWrites (.reg .status) d 0xF ∧ d.getLsbD 1 = true) ∨ s.HostResets := by
  cases h with
  | accepted h hidle hbusy => exact .inl ⟨h, hidle, hbusy⟩
  | cleared d h _ hdone => exact .inr (.inl ⟨d, h, by simpa [hs, ht] using hdone⟩)
  | reset h => exact .inr (.inr h)
  | _ => simp_all

theorem State.StatusStep.code_changes (h : State.StatusStep s t) (hc : t.code ≠ s.code) :
    s.Completes ∨ s.HostResets := by
  cases h with
  | completed h => exact .inl h
  | reset h => exact .inr h
  | _ => contradiction

theorem State.StatusStep.ovr_rises (h : State.StatusStep s t) (hs : s.ovr = false) (ht : t.ovr = true) :
    s.busy = true ∧ ∃ tg d be, s.HostWrites tg d be ∧ tg.DroppedWhileBusy be := by
  cases h with
  | dropped tg d be h htg hrunning => exact ⟨hrunning, tg, d, be, h, htg⟩
  | _ => simp_all

theorem State.StatusStep.ovr_falls (h : State.StatusStep s t) (hs : s.ovr = true) (ht : t.ovr = false) :
    (∃ d, s.HostWrites (.reg .status) d 0xF ∧ d.getLsbD 8 = true) ∨ s.HostResets := by
  cases h with
  | cleared d h _ _ _ hovr => exact .inl ⟨d, h, by simpa [hs, ht] using hovr⟩
  | reset h => exact .inr h
  | _ => simp_all

/-- Settles O39: the ways a step can treat the four status fields, then one clause each. -/
theorem statusBitsChangeOnlyAsStated : Obligations.StatusBitsChangeOnlyAsStated := by
  intro s t h
  have hst := statusStep_of_step h
  exact ⟨hst.busy_rises, hst.busy_falls, hst.done_rises, hst.done_falls, hst.code_changes, hst.ovr_rises,
    hst.ovr_falls⟩

/-! ### LEN -/

/-- Settles O41: the legalised write, EPF's length (no longer than BUF, so that it fits), the frame of the other
commands, and the invariant. -/
theorem lenNeverExceedsBuf : Obligations.LenNeverExceedsBuf := by
  refine ⟨fun s v hinv hidle => ?_, fun s t hinv h hok => ?_, fun i s t hi h => ?_, fun s t hinv h => ?_⟩
  · have hlt : min v.toNat s.params.bufBytes < 2 ^ 32 := (min_le_left _ _).trans_lt v.isLt
    rw [State.writeReg, State.unlessBusy_idle hidle]
    exact Nat.mod_eq_of_lt hlt
  · cases hs : s.sourceInRange
    · rw [exec_epf_of_outOfRange hs] at h
      cases h
      simp at hok
    · rw [exec_epf_of_inRange hs] at h
      cases h
      have hlen := hinv.epfFilter_source_length_le hs
      obtain ⟨⟨-, -, hbuf, -⟩, -⟩ := hinv
      exact Nat.mod_eq_of_lt (by omega)
  · exact ((executed_of_exec h).keeps_len_buf hi).1
  · obtain ⟨-, hlen, -⟩ := hinv.step h
    exact hlen

/-! ### VAL -/

/-- A command that changes VAL succeeds and is not EPF, where the fault treats RDBU's undefined case. -/
theorem State.Executed.val_changes {i : Instr} (h : State.Executed s i t) (hfault : s.params.overrun = .fault)
    (hval : t.val ≠ s.val) : t.code = 0 ∧ i ≠ .epf := by
  cases h with
  | raised => exact absurd rfl hval
  | read _ _ _ hepf => exact ⟨rfl, hepf⟩
  | space => exact ⟨rfl, by simp⟩
  | filtered => exact absurd rfl hval
  | overrun _ hany => simp [hfault] at hany

theorem State.val_changes_of_runCommand (h : s.runCommand = .next t) (hfault : s.params.overrun = .fault)
    (hval : t.val ≠ s.val) : t.code = 0 ∧ ∃ i, decode s.cmd = .legal i ∧ i ≠ .epf := by
  rcases s.runCommand_cases with ⟨i, hi, hr⟩ | ⟨why, -, hr⟩ <;> rw [hr] at h
  · obtain ⟨hok, hepf⟩ := (executed_of_exec h).val_changes hfault hval
    exact ⟨hok, i, hi, hepf⟩
  · cases h
    exact absurd rfl hval

theorem State.Written.val {d : Word} {be : BitVec 4} {tg : Target} (h : State.Written s d be tg t) :
    t.val = s.val := by
  cases h <;> rfl

/-- No host event but the assertion of reset changes VAL (10_state.md R25). -/
theorem State.Happened.val_changes {e : HostEvent} (h : State.Happened s e t) (hval : t.val ≠ s.val) :
    t.inReset = true := by
  cases h with
  | write _ _ _ _ _ _ hw => exact absurd hw.val hval
  | assertReset => rfl
  | _ => exact absurd rfl hval

/-- Settles O42: at a completion by what the command does to VAL, and on the host's side only by a reset. -/
theorem valChangesOnlyBySuccessOrReset : Obligations.ValChangesOnlyBySuccessOrReset := by
  intro s t hfault h hval
  rcases step_next_cases h with ⟨⟨ha, hf⟩, hr⟩ | rfl | ⟨-, e, es, -, hh⟩
  · exact .inl ⟨ha, hf, State.val_changes_of_runCommand (s := s.takeTurn) hr hfault hval⟩
  · exact absurd rfl hval
  · exact .inr (hh.val_changes hval)

end Sys2Proof.Machine
end

section
/-! The register map of an idle block: reads (O37), writes (O38), the constant registers (O43) and the reserved
offsets (O44). -/

namespace Sys2Proof.Machine

variable {s t : State}

theorem Reg.offset_lt (r : Reg) : r.offset < 0x30 := by cases r <;> decide

/-- A register's offset reaches it (10_state.md R19). -/
theorem targetOf_offset (r : Reg) : targetOf r.offset = .reg r := targetOf_reg r (j := 0) (by decide)

/-- A read at an offset of the window that returns the current value of what it reaches (20_memory.md R41). -/
theorem State.hostEvent_read_current {off : Nat} (hoff : off < windowBytes) (hr : s.inReset = false)
    (hb : (s.busy && (targetOf off).openWhileBusy) = false) :
    s.hostEvent (.read (s.params.base + off)) =
      { s with reads := s.currentValue (targetOf off) :: s.reads } := by
  rw [s.hostEvent_read_base hoff, State.hostRead_current hr hb]

/-- A full write at a register's offset, reset released, is the register's write. -/
theorem State.hostEvent_write_reg (hr : s.inReset = false) (r : Reg) (d : Word) :
    s.hostEvent (.write (s.params.base + r.offset) d 0xF) = s.writeReg r d := by
  have hoff : r.offset < windowBytes := r.offset_lt.trans (by decide)
  rw [s.hostEvent_write_base hoff, State.hostWrite_released hr, targetOf_offset]
  rfl

/-- A write that its target ignores is ignored by the block, in reset or not. -/
theorem State.hostEvent_write_ignored {off : Nat} {d : Word} {be : BitVec 4} (hoff : off < windowBytes)
    (h : s.writeTarget (targetOf off) d be = s) :
    s.hostEvent (.write (s.params.base + off) d be) = s := by
  rw [s.hostEvent_write_base hoff, State.hostWrite]
  split
  · rfl
  · exact h

/-! ### Reads of the registers -/

/-- The layout of STATUS, bit by bit (10_state.md R21). -/
theorem State.getLsbD_statusWord (s : State) (j : Nat) : s.statusWord.getLsbD j =
    if j = 0 then s.busy else if j = 1 then s.done else if j = 2 then s.err else if j = 3 then false
    else if j < 8 then s.code.getLsbD (j - 4) else if j = 8 then s.ovr else false := by
  have happend : s.statusWord.getLsbD j =
      (0#23 ++ BitVec.ofBool s.ovr ++ s.code ++ 0#1 ++ BitVec.ofBool s.err ++ BitVec.ofBool s.done ++
        BitVec.ofBool s.busy).getLsbD j := rfl
  simp only [happend, BitVec.getLsbD_append]
  rcases Nat.lt_or_ge j 9 with hj | hj
  · interval_cases j <;> simp
  · obtain ⟨k, rfl⟩ := Nat.exists_eq_add_of_le' hj
    simp

/-- CODE is the field of STATUS at bits 7:4. -/
theorem State.extractLsb'_statusWord_code (s : State) : s.statusWord.extractLsb' 4 4 = s.code := by
  apply BitVec.eq_of_getLsbD_eq
  intro i hi
  rw [BitVec.getLsbD_extractLsb', State.getLsbD_statusWord, if_neg (by omega), if_neg (by omega),
    if_neg (by omega), if_neg (by omega), if_pos (by omega), Nat.add_sub_cancel_left, decide_eq_true hi,
    Bool.true_and]

/-- The layout of CTRL, bit by bit (10_state.md R22). -/
theorem State.getLsbD_ctrlWord (s : State) (j : Nat) :
    s.ctrlWord.getLsbD j = if j = 0 then s.ie else false := by
  have happend : s.ctrlWord.getLsbD j = (0#31 ++ BitVec.ofBool s.ie).getLsbD j := rfl
  simp only [happend, BitVec.getLsbD_append]
  cases j <;> simp

/-- VAL is its two halves (10_state.md R25). -/
theorem State.valHi_append_valLo (s : State) : s.regValue .valHi ++ s.regValue .valLo = s.val :=
  (BitVec.extractLsb'_append_extractLsb'_eq_extractLsb' (x := s.val) (start₁ := 0) (len₁ := 32) (len₂ := 32)
    rfl).trans BitVec.extractLsb'_eq_self

/-- Settles O37: a register's four addresses reach it, and the layouts of STATUS and CTRL bit by bit. -/
theorem registersReadBack : Obligations.RegistersReadBack := by
  refine ⟨fun s r j hj hr hidle => ?_, fun s => ⟨rfl, rfl, rfl, rfl, rfl, s.valHi_append_valLo⟩, fun s => ?_,
    fun s => ⟨s.getLsbD_ctrlWord 0, fun j hj => ?_⟩⟩
  · have hoff : r.offset + j < windowBytes := by
      have := r.offset_lt
      simp only [windowBytes]
      omega
    rw [Nat.add_assoc, State.hostEvent_read_current hoff hr (by simp [hidle]), targetOf_reg r hj]
    rfl
  · have hbit : ∀ j, (s.regValue .status).getLsbD j = _ := s.getLsbD_statusWord
    refine ⟨hbit 0, hbit 1, (hbit 2).trans ?_, hbit 3, s.extractLsb'_statusWord_code, hbit 8, fun j hj => ?_⟩
    · exact Bool.eq_iff_iff.2 (by simp [State.err])
    · rw [hbit, if_neg (by omega), if_neg (by omega), if_neg (by omega), if_neg (by omega),
        if_neg (by omega), if_neg (by omega)]
  · exact (s.getLsbD_ctrlWord j).trans (if_neg (by omega))

/-! ### Writes to the registers -/

/-- Settles O38: each full write is the register's write, and with BUSY = 0 no write is dropped. -/
theorem idleRegisterWrites : Obligations.IdleRegisterWrites := by
  intro s d hr hidle wr
  have hwr (r : Reg) : wr r = s.writeReg r d := State.hostEvent_write_reg hr r d
  have hidleWrite := State.unlessBusy_idle hidle
  exact ⟨(hwr .cmd).trans (hidleWrite _), hwr .status, hwr .ctrl, (hwr .pos).trans (hidleWrite _),
    (hwr .len).trans (hidleWrite _), (hwr .arg0).trans (hidleWrite _), (hwr .arg1).trans (hidleWrite _),
    hwr .valLo, hwr .valHi, hwr .config, hwr .ibufSize, hwr .bufSize⟩

/-! ### The constant registers -/

/-- The fields of CONFIG (10_state.md R27). -/
theorem configWord_fields (p : Params) :
    (configWord p).extractLsb' 0 6 = BitVec.ofNat 6 p.kMax ∧ (configWord p).extractLsb' 6 2 = 0 ∧
    (configWord p).extractLsb' 8 8 = 0x07 ∧ (configWord p).extractLsb' 16 16 = 0 := by
  unfold configWord
  generalize BitVec.ofNat 6 p.kMax = k
  revert k
  decide

theorem writeReg_constant {r : Reg} (hr : r ∈ [Reg.config, .ibufSize, .bufSize]) (s : State) (d : Word) :
    s.writeReg r d = s := by
  simp only [List.mem_cons, List.not_mem_nil, or_false] at hr
  rcases hr with rfl | rfl | rfl <;> rfl

/-- A constant register is a function of the parameters (10_state.md R27, R28). -/
theorem regValue_constant {r : Reg} (hr : r ∈ [Reg.config, .ibufSize, .bufSize])
    (h : t.params = s.params) : t.regValue r = s.regValue r := by
  simp only [List.mem_cons, List.not_mem_nil, or_false] at hr
  rcases hr with rfl | rfl | rfl <;> simp only [State.regValue, h]

theorem State.runCommand_params (h : s.runCommand = .next t) : t.params = s.params := by
  rcases s.runCommand_cases with ⟨i, -, hr⟩ | ⟨why, -, hr⟩ <;> rw [hr] at h
  · exact (executed_of_exec h).commandFrame.params
  · cases h
    rfl

theorem State.Written.params {d : Word} {be : BitVec 4} {tg : Target} (h : State.Written s d be tg t) :
    t.params = s.params := by
  cases h <;> rfl

theorem State.Happened.params {e : HostEvent} (h : State.Happened s e t) : t.params = s.params := by
  cases h with
  | write _ _ _ _ _ _ hw => exact hw.params
  | _ => rfl

/-- No step changes the parameters (00_scope.md R6). -/
theorem step_params (h : step s = .next t) : t.params = s.params := by
  rcases step_next_cases h with ⟨-, hr⟩ | rfl | ⟨-, e, es, -, hh⟩
  · exact State.runCommand_params (s := s.takeTurn) hr
  · rfl
  · exact hh.params

/-- Settles O43: the fields of the words, the ignored writes, and the parameters that no step changes. -/
theorem constantRegistersAreConstant : Obligations.ConstantRegistersAreConstant := by
  refine ⟨fun s hlegal => ?_, fun s d be r hr => ?_, fun s t h r hr => regValue_constant hr (step_params h)⟩
  · obtain ⟨-, hle, hbuf, hk, -⟩ := hlegal
    obtain ⟨hkMax, h6, h8, h16⟩ := configWord_fields s.params
    refine ⟨?_, h6, h8, h16, Nat.mod_eq_of_lt (by omega), Nat.mod_eq_of_lt (by omega)⟩
    exact (congrArg BitVec.toNat hkMax).trans (Nat.mod_eq_of_lt (by omega))
  · refine State.hostEvent_write_ignored (r.offset_lt.trans (by decide)) ?_
    rw [targetOf_offset, State.writeTarget, writeReg_constant hr, ite_self]

/-! ### The reserved offsets -/

/-- Settles O44: a reserved offset reaches no register and no window. -/
theorem reservedOffsetsReadZero : Obligations.ReservedOffsetsReadZero := by
  intro s off hoff
  have hwindow : off < windowBytes := by
    rcases hoff with ⟨-, h⟩ | ⟨-, h⟩
    · exact h.trans (by decide)
    · exact h
  have htarget : targetOf off = .reserved := targetOf_reserved (hoff.imp id And.left)
  refine ⟨fun hr => ?_, fun d be => State.hostEvent_write_ignored hwindow ?_⟩
  · rw [State.hostEvent_read_current hwindow hr] <;> rw [htarget]
    · rfl
    · exact Bool.and_false _
  · rw [htarget]
    rfl

end Sys2Proof.Machine
end

section
/-! The state after reset, for every choice of the parameters: its registers (O52) and the invariant (O56). -/

namespace Sys2Proof.Machine

/-- Settles O52: every register is a function of fields that are 0, and no byte of a memory has been
written. -/
theorem resetValuesOfTheRegisters : Obligations.ResetValuesOfTheRegisters := by
  refine ⟨fun p => ?_, rfl⟩
  have hstatus : (State.resetWith p).regValue .status = 0 := by
    simp [State.regValue, State.statusWord, State.err, State.resetWith]
  have hctrl : (State.resetWith p).regValue .ctrl = 0 := by
    simp [State.regValue, State.ctrlWord, State.resetWith]
  have hvalHi : (0 : DWord).extractLsb' 32 32 = 0 := by decide
  exact ⟨rfl, hstatus, hctrl, rfl, rfl, rfl, hvalHi, rfl, rfl, rfl, rfl, fun _ => rfl, fun _ => rfl, rfl, rfl⟩

/-- The state after reset meets the invariant: every register is 0 and no byte has been written. -/
theorem State.resetWith_inv {p : Params} (hp : p.Legal) : (State.resetWith p).Inv :=
  ⟨hp, Nat.zero_le _, List.Pairwise.nil, List.forall_mem_nil _, List.Pairwise.nil, List.forall_mem_nil _,
    fun _ => rfl, fun _ => Nat.zero_le _, fun _ => ⟨rfl, rfl, rfl, rfl, rfl, rfl, rfl, rfl, rfl, rfl, rfl⟩⟩

/-- Settles O56: legal parameters suffice, and those of `State.reset` are legal. -/
theorem resetMeetsTheInvariant : Obligations.ResetMeetsTheInvariant :=
  ⟨fun _ hp => State.resetWith_inv hp, State.resetWith_inv (p := Config.resetParams) (by decide)⟩

end Sys2Proof.Machine
end

section
/-! A command in flight completes (O35): its outcome is a function of its latched inputs, which the host's moves
leave alone until the sequencer's turn comes. -/

namespace Sys2Proof.Machine

variable {s t : State}

/-! ### The latched inputs determine the outcome -/

namespace State.SameCommand

theorem trans {u : State} (h : SameCommand s t) (h' : SameCommand t u) : SameCommand s u where
  params := h'.params.trans h.params
  cmd := h'.cmd.trans h.cmd
  busy := h'.busy.trans h.busy
  inReset := h'.inReset.trans h.inReset
  code := h'.code.trans h.code
  pos := h'.pos.trans h.pos
  len := h'.len.trans h.len
  val := h'.val.trans h.val
  arg0 := h'.arg0.trans h.arg0
  arg1 := h'.arg1.trans h.arg1
  ibuf := h'.ibuf.trans h.ibuf
  buf := h'.buf.trans h.buf
  memDraw := h'.memDraw.trans h.memDraw

theorem takeTurn (s : State) : SameCommand s s.takeTurn := by constructor <;> rfl

theorem inFlight (h : SameCommand s t) : t.inFlight = s.inFlight := by
  simp only [State.inFlight, h.busy, h.inReset]

theorem bitLen (h : SameCommand s t) : t.bitLen = s.bitLen := by
  simp only [State.bitLen, h.len]

theorem avail (h : SameCommand s t) (n : Nat) : t.avail n = s.avail n := by
  simp only [State.avail, h.pos, h.bitLen]

theorem ibufByte (h : SameCommand s t) (a : Nat) : t.ibufByte a = s.ibufByte a :=
  State.ibufByte_congr h.ibuf h.memDraw a

theorem bufByte (h : SameCommand s t) (a : Nat) : t.bufByte a = s.bufByte a :=
  State.bufByte_congr h.buf h.memDraw a

theorem bitAt (h : SameCommand s t) (p : Nat) : t.bitAt p = s.bitAt p := by
  simp only [State.bitAt, h.bufByte]

theorem field (h : SameCommand s t) (p n : Nat) : t.field p n = s.field p n := by
  rw [State.field, State.bits_congr fun j _ => h.bitAt (p + j), State.field]

theorem decodeUE (h : SameCommand s t) : t.decodeUE = s.decodeUE :=
  State.decodeUE_congr h.pos h.len (congrArg Params.kMax h.params) fun _ _ _ => h.bitAt _

theorem source (h : SameCommand s t) : t.source = s.source := by
  simp only [State.source, h.arg0, h.arg1, h.ibufByte]

theorem sourceInRange (h : SameCommand s t) : t.sourceInRange = s.sourceInRange := by
  simp only [State.sourceInRange, h.arg0, h.arg1, h.params]

theorem complete (h : SameCommand s t) (c : BitVec 4) : SameCommand (s.complete c) (t.complete c) :=
  { h with busy := rfl, code := rfl }

theorem commitRead (h : SameCommand s t) (v : DWord) (p : Nat) :
    SameCommand (s.commitRead v p) (t.commitRead v p) :=
  { h with busy := rfl, code := rfl, val := rfl, pos := rfl }

theorem readFixed (h : SameCommand s t) (n : Nat) : SameCommand (s.readFixed n) (t.readFixed n) := by
  rw [State.readFixed, State.readFixed, h.pos, h.field]
  exact h.commitRead _ _

theorem filtered (h : SameCommand s t) : SameCommand s.filtered t.filtered := by
  rw [State.filtered, State.filtered, h.source, h.buf]
  exact { h with busy := rfl, code := rfl, buf := rfl, len := rfl, pos := rfl }

end State.SameCommand

/-- The two outcomes are next states that agree on all that a command in flight has. -/
def SameOutcome (o o' : Host.Outcome State Fault Refusal) : Prop :=
  ∃ u v, o = .next u ∧ o' = .next v ∧ State.SameCommand u v

theorem State.SameCommand.exec_hsp (h : State.SameCommand s t) (n : Nat) :
    SameOutcome (exec (.hsp n) s) (exec (.hsp n) t) := by
  refine ⟨_, _, exec_hsp_eq s n, exec_hsp_eq t n, ?_⟩
  rw [h.avail]
  exact { h with busy := rfl, code := rfl, val := rfl }

theorem State.SameCommand.exec_rdb (h : State.SameCommand s t) (n : Nat) :
    SameOutcome (exec (.rdb n) s) (exec (.rdb n) t) := by
  cases hn : s.avail n
  · exact ⟨_, _, exec_rdb_of_short hn, exec_rdb_of_short (h.avail n ▸ hn), h.complete 1⟩
  · exact ⟨_, _, exec_rdb_of_avail hn, exec_rdb_of_avail (h.avail n ▸ hn), h.readFixed n⟩

theorem State.SameCommand.exec_rdbu (h : State.SameCommand s t) {n : Nat} (hn : s.avail n = true) :
    SameOutcome (exec (.rdbu n) s) (exec (.rdbu n) t) :=
  ⟨_, _, exec_rdbu_of_avail hn, exec_rdbu_of_avail (h.avail n ▸ hn), h.readFixed n⟩

theorem State.SameCommand.exec_rdue (h : State.SameCommand s t) :
    SameOutcome (exec .rdue s) (exec .rdue t) := by
  cases hd : s.decodeUE with
  | error e => exact ⟨_, _, exec_rdue_of_error hd, exec_rdue_of_error (h.decodeUE ▸ hd), h.complete _⟩
  | read v p => exact ⟨_, _, exec_rdue_of_read hd, exec_rdue_of_read (h.decodeUE ▸ hd), h.commitRead _ p⟩

theorem State.SameCommand.exec_rdse (h : State.SameCommand s t) :
    SameOutcome (exec .rdse s) (exec .rdse t) := by
  cases hd : s.decodeUE with
  | error e => exact ⟨_, _, exec_rdse_of_error hd, exec_rdse_of_error (h.decodeUE ▸ hd), h.complete _⟩
  | read v p => exact ⟨_, _, exec_rdse_of_read hd, exec_rdse_of_read (h.decodeUE ▸ hd), h.commitRead _ p⟩

theorem State.SameCommand.exec_epf (h : State.SameCommand s t) :
    SameOutcome (exec .epf s) (exec .epf t) := by
  cases hs : s.sourceInRange
  · exact ⟨_, _, exec_epf_of_outOfRange hs, exec_epf_of_outOfRange (h.sourceInRange ▸ hs), h.complete 4⟩
  · exact ⟨_, _, exec_epf_of_inRange hs, exec_epf_of_inRange (h.sourceInRange ▸ hs), h.filtered⟩

/-- A command's outcome is a function of its latched inputs (20_memory.md R44), RDBU in its defined case. -/
theorem State.SameCommand.runCommand (h : State.SameCommand s t) (hc : s.Covered) :
    SameOutcome s.runCommand t.runCommand := by
  unfold State.runCommand
  rw [h.cmd]
  cases hd : decode s.cmd with
  | illegal why => exact ⟨_, _, rfl, rfl, h.complete _⟩
  | legal i =>
    cases i with
    | rdb n => exact h.exec_rdb n
    | rdbu n => exact h.exec_rdbu (hc n hd)
    | rdf => simpa only [exec_rdf_eq_rdb] using h.exec_rdb 1
    | rdue => exact h.exec_rdue
    | rdse => exact h.exec_rdse
    | hsp n => exact h.exec_hsp n
    | epf => exact h.exec_epf

/-! ### The turns until the completion -/

theorem State.Written.turns_host {d : Word} {be : BitVec 4} {tg : Target} (h : State.Written s d be tg t) :
    t.turns = s.turns ∧ t.host = s.host := by
  cases h <;> exact ⟨rfl, rfl⟩

/-- A host event leaves the turns alone, and the events to come but for a `wait` that goes on. -/
theorem State.Happened.turns_host {e : HostEvent} (h : State.Happened s e t) :
    t.turns = s.turns ∧ (t.host = s.host ∨ t.host = .wait :: s.host) := by
  cases h with
  | seen _ _ _ _ hh => exact ⟨rfl, hh⟩
  | write _ _ _ _ _ _ hw => exact ⟨hw.turns_host.1, .inl hw.turns_host.2⟩
  | _ => exact ⟨rfl, .inl rfl⟩

/-- A host move, short of a reset, leaves the command in flight its inputs and asserts no reset later. -/
theorem step_of_host (hf : s.inFlight = true) (ha : s.nextAgent = .host)
    (hh : ∀ e ∈ s.host, e ≠ .assertReset) :
    ∃ t, step s = .next t ∧ State.SameCommand s t ∧ t.turns = s.turns.tail ∧
      ∀ e ∈ t.host, e ≠ .assertReset := by
  rcases step_cases s with ⟨ha', -⟩ | ⟨ha', -⟩ | ⟨-, -, hs⟩ | ⟨-, e, es, he, hs⟩
  · simp [ha] at ha'
  · simp [ha] at ha'
  · exact ⟨_, hs, .takeTurn s, rfl, hh⟩
  · rw [he] at hh
    obtain ⟨hne, hes⟩ := List.forall_mem_cons.1 hh
    have hsame : State.SameCommand s (s.takeEvent es) := by constructor <;> rfl
    obtain ⟨hturns, hhost⟩ := ((s.takeEvent es).happened_hostEvent e).turns_host
    refine ⟨_, hs, hsame.trans (State.sameCommand_hostEvent hf hne), hturns, ?_⟩
    rcases hhost with hhost | hhost <;> rw [hhost]
    · exact hes
    · exact List.forall_mem_cons.2 ⟨by simp, hes⟩

theorem step_of_sequencer (hf : s.inFlight = true) (ha : s.nextAgent = .sequencer) :
    step s = s.takeTurn.runCommand := by
  rcases step_cases s with ⟨-, -, hs⟩ | ⟨-, hf', -⟩ | ⟨ha', -⟩ | ⟨ha', -⟩
  · exact hs
  · simp [hf] at hf'
  · simp [ha] at ha'
  · simp [ha] at ha'

theorem run_one (M : Host.Core) (s : M.State) : M.run 1 s = M.step s := by
  rw [Host.Core.run]
  cases M.step s <;> rfl

theorem run_succ_of_step {M : Host.Core} {s t : M.State} (h : M.step s = .next t) (k : Nat) :
    M.run (k + 1) s = M.run k t := by
  rw [Host.Core.run, h]

/-- Within `n` steps the command in flight runs, on the inputs it has in `s`. -/
def State.RunsWithin (s : State) (n : Nat) : Prop :=
  ∃ k, k ≤ n ∧ ∃ w, State.SameCommand s w ∧ Host.Core.run core k s = w.runCommand

theorem State.runsWithin_of_sequencer (hf : s.inFlight = true) (ha : s.nextAgent = .sequencer) (n : Nat) :
    s.RunsWithin (n + 1) :=
  ⟨1, by omega, s.takeTurn, .takeTurn s, (run_one core s).trans (step_of_sequencer hf ha)⟩

theorem State.RunsWithin.of_step {n : Nat} (h : t.RunsWithin n) (hstep : step s = .next t)
    (hsame : State.SameCommand s t) : s.RunsWithin (n + 1) := by
  obtain ⟨k, hk, w, hw, hrun⟩ := h
  exact ⟨k + 1, by omega, w, hsame.trans hw, (run_succ_of_step (M := core) hstep k).trans hrun⟩

/-- The host's moves before the completion are among the coming turns (60_exceptions.md R91). -/
theorem State.runsWithin_turns (hf : s.inFlight = true) (hh : ∀ e ∈ s.host, e ≠ .assertReset) :
    s.RunsWithin (s.turns.length + 1) := by
  generalize hturns : s.turns = turns
  induction turns generalizing s with
  | nil => exact State.runsWithin_of_sequencer hf (by simp [State.nextAgent, hturns, hf]) _
  | cons a turns ih =>
    have ha : s.nextAgent = a := by simp [State.nextAgent, hturns]
    cases a with
    | sequencer => exact State.runsWithin_of_sequencer hf ha _
    | host =>
      obtain ⟨t, hstep, hsame, ht, hth⟩ := step_of_host hf ha hh
      have hrest := ih (hsame.inFlight.trans hf) hth (by rw [ht, hturns, List.tail_cons])
      exact hrest.of_step hstep hsame

theorem State.runCommand_cmd (h : s.runCommand = .next t) : t.cmd = s.cmd := by
  rcases s.runCommand_cases with ⟨i, -, hr⟩ | ⟨why, -, hr⟩ <;> rw [hr] at h
  · exact (executed_of_exec h).commandFrame.cmd
  · cases h
    rfl

/-- Settles O35: the run comes to the completion with the latched inputs as they were, and these determine the
outcome. -/
theorem commandInFlightCompletes : Obligations.CommandInFlightCompletes := by
  intro s hf hc hh
  obtain ⟨k, hk, w, hw, hrun⟩ := State.runsWithin_turns hf hh
  obtain ⟨u, v, hu, hv, huv⟩ := hw.runCommand hc
  obtain ⟨hbusy, hdone, -⟩ := State.runCommand_ends hv
  have hcmd : u.cmd = s.cmd := State.runCommand_cmd hu
  exact ⟨u, hu, k, hk, v, hrun.trans hv, hbusy, hdone, huv.cmd.trans hcmd, huv.code, huv.val, huv.pos, huv.len,
    huv.arg0, huv.arg1, huv.ibufByte, huv.bufByte⟩

end Sys2Proof.Machine
end

section
/-! The bitstream of BUF, most significant bit of each byte first (O15). -/

namespace Sys2Proof.Machine

variable {s : State}

theorem natBits_succ (n v : Nat) : natBits (n + 1) v = v.testBit n :: natBits n v := by
  simp only [natBits, List.range_succ_eq_map, List.map_cons, List.map_map, List.cons.injEq]
  refine ⟨by simp, List.map_congr_left fun j _ => ?_⟩
  show v.testBit (n + 1 - 1 - (j + 1)) = v.testBit (n - 1 - j)
  congr 1
  omega

@[simp] theorem natBits_length (n v : Nat) : (natBits n v).length = n := by simp [natBits]

/-- The `n` bits written for `v` are its low `n` bits (00_scope.md R9). -/
theorem uint_natBits (n v : Nat) : uint (natBits n v) = v % 2 ^ n := by
  induction n with
  | zero => simp [natBits, uint, Nat.mod_one]
  | succ n ih =>
    rw [natBits_succ, uint_cons, natBits_length, ih, Nat.mod_pow_succ, Nat.toNat_testBit, Nat.mul_comm,
      Nat.add_comm]

/-- Bit 7 of a byte comes first (20_memory.md R39). -/
theorem State.bitAt_byte (s : State) (i : Nat) {j : Nat} (hj : j < 8) :
    s.bitAt (8 * i + j) = (s.bufByte i).getLsbD (7 - j) := by
  have hdiv : (8 * i + j) / 8 = i := by omega
  have hmod : (8 * i + j) % 8 = j := by omega
  rw [State.bitAt, hdiv, hmod]

theorem State.bits_byte (s : State) (i : Nat) : s.bits (8 * i) 8 = natBits 8 (s.bufByte i).toNat := by
  apply List.ext_getElem?
  intro j
  rw [State.bits_getElem?, natBits, List.getElem?_map]
  by_cases hj : j < 8
  · rw [if_pos hj, List.getElem?_range hj, s.bitAt_byte i hj]
    rfl
  · rw [if_neg hj, List.getElem?_eq_none (by simpa using hj)]
    rfl

theorem State.field_byte (s : State) (i : Nat) : s.field (8 * i) 8 = (s.bufByte i).toNat := by
  rw [State.field, s.bits_byte, uint_natBits]
  exact Nat.mod_eq_of_lt (s.bufByte i).isLt

/-- A byte-wide field at bit 4 is the low half of byte 0 followed by the high half of byte 1. -/
theorem State.field_straddling (h0 : s.bufByte 0 = 0x12) (h1 : s.bufByte 1 = 0x34) : s.field 4 8 = 0x23 := by
  have hbyte0 : s.field 0 8 = 0x12 := by simpa [h0] using s.field_byte 0
  have hbyte1 : s.field 8 8 = 0x34 := by simpa [h1] using s.field_byte 1
  have hsplit0 := s.field_add 0 4 4
  have hsplit1 := s.field_add 8 4 4
  have hfield := s.field_add 4 4 4
  have hlt0 := s.field_lt 4 4
  have hlt1 := s.field_lt 12 4
  simp only [Nat.reduceAdd, Nat.reducePow, Nat.zero_add] at hsplit0 hsplit1 hfield hlt0 hlt1
  omega

/-- Settles O15: a byte's bits are those of its value, and the example's field is joined from two halves. -/
theorem bitstreamIsMsbFirst : Obligations.BitstreamIsMsbFirst := by
  refine ⟨State.field_byte, fun s i j hj => s.bitAt_byte i hj, State.field_add, fun s h0 h1 hlen hpos => ?_⟩
  have havail : s.avail 8 = true := (s.avail_iff 8).2 (by simp [hlen, hpos])
  have hfield : s.field s.pos.toNat 8 = 0x23 := by simpa [hpos] using State.field_straddling h0 h1
  rw [exec_rdb_of_avail havail, State.readFixed, hfield, hpos]
  rfl

end Sys2Proof.Machine
end

section
/-! What the sequencer's step runs (O6): the command CMD decodes to, by the round trip of the encoding. -/

namespace Sys2Proof.Machine

variable {s : State}

theorem decodeCount_legal {limit : Nat} {make : Nat → Instr} {w : Word} (hrsv : rsvField w = 0)
    (hn : countField w ≤ limit) : decodeCount limit make w = .legal (make (countField w)) := by
  rw [decodeCount, if_neg (by simp [hrsv]), if_neg (by omega)]

/-- The fields of every well-formed command's encoding (30_encoding.md R49). -/
theorem fields_encode {i : Instr} (h : i.wellFormed = true) :
    opField (encode i) = i.opcode ∧ rsvField (encode i) = 0 ∧ countField (encode i) = i.count := by
  cases i with
  | rdb n => exact Laws.Fields.rdb n h
  | rdbu n => exact Laws.Fields.rdbu n h
  | rdf => exact Laws.Fields.rdf h
  | rdue => exact Laws.Fields.rdue h
  | rdse => exact Laws.Fields.rdse h
  | hsp n => exact Laws.Fields.hsp n h
  | epf => exact Laws.Fields.epf h

theorem decode_encode {i : Instr} (h : i.wellFormed = true) : decode (encode i) = .legal i := by
  obtain ⟨hop, hrsv, hn⟩ := fields_encode h
  have hlegal (limit : Nat) (make : Nat → Instr) (hle : i.count ≤ limit) :
      decodeCount limit make (encode i) = .legal (make i.count) :=
    hn ▸ decodeCount_legal hrsv (hn ▸ hle)
  rw [decode, hop]
  cases i with
  | rdb n => exact hlegal 64 .rdb (of_decide_eq_true h)
  | rdbu n => exact hlegal 64 .rdbu (of_decide_eq_true h)
  | rdf => exact hlegal 0 _ le_rfl
  | rdue => exact hlegal 0 _ le_rfl
  | rdse => exact hlegal 0 _ le_rfl
  | hsp n => exact hlegal 65535 .hsp (of_decide_eq_true h)
  | epf => exact hlegal 0 _ le_rfl

theorem State.runCommand_legal {i : Instr} (h : decode s.cmd = .legal i) : s.runCommand = exec i s := by
  rw [State.runCommand, h]

theorem tableWord_toNat (w : Word) : tableWord 32 w.toNat = w := by
  rw [tableWord, Nat.mod_eq_of_lt w.isLt, BitVec.ofNat_toNat, BitVec.setWidth_eq]

/-- Settles O6: the sequencer's step runs what CMD decodes to, and an encoded command decodes to itself. -/
theorem stepRunsTheDecodedCommand : Obligations.StepRunsTheDecodedCommand := by
  refine ⟨fun s i hf ha hd => ?_, fun s i hi => ?_⟩
  · rw [step_of_sequencer hf ha]
    exact State.runCommand_legal hd
  · have hcmd : (s.withFetchWord 32 (encode i).toNat).cmd = encode i := tableWord_toNat (encode i)
    have hturn : (s.withFetchWord 32 (encode i).toNat).takeTurn =
        { s with cmd := encode i, busy := true, done := false, inReset := false } :=
      congrArg (fun w => { s with cmd := w, busy := true, done := false, inReset := false }) hcmd
    rw [step_of_sequencer rfl rfl, hturn]
    exact State.runCommand_legal (decode_encode hi)

end Sys2Proof.Machine
end

section
/-! Which accesses reach the block (O45), partial register writes (O46), the windows of an idle block (O47), and
the host's writes (O48) and reads (O49) while BUSY = 1. -/

namespace Sys2Proof.Machine

variable {s : State}

/-! ### The addresses of the window -/

theorem State.selects_iff (s : State) (addr : Nat) :
    s.selects addr = true ↔ s.params.base ≤ addr ∧ addr < s.params.base + windowBytes := by
  simp [State.selects]

/-- Bits 1:0 of an offset do not matter (20_memory.md R36). -/
theorem targetOf_aligned (off : Nat) : targetOf (off - off % 4) = targetOf off := by
  have halign : off - off % 4 - (off - off % 4) % 4 = off - off % 4 := by omega
  simp only [targetOf, halign]

theorem State.hostRead_congr {off off' : Nat} (h : targetOf off = targetOf off') :
    s.hostRead off = s.hostRead off' := by
  simp only [State.hostRead, h]

theorem State.hostWrite_congr {off off' : Nat} (h : targetOf off = targetOf off') (d : Word) (be : BitVec 4) :
    s.hostWrite off d be = s.hostWrite off' d be := by
  simp only [State.hostWrite, h]

/-- The base is a multiple of 4, so an address and the aligned one below it are in the window together. -/
theorem State.selects_aligned (hbase : s.params.base % 4 = 0) (addr : Nat) :
    s.selects (addr - addr % 4) = s.selects addr := by
  rw [Bool.eq_iff_iff, State.selects_iff, State.selects_iff]
  simp only [windowBytes]
  omega

theorem State.targetOf_aligned_addr (hbase : s.params.base % 4 = 0) {addr : Nat} (h : s.params.base ≤ addr) :
    targetOf (addr - s.params.base) = targetOf (addr - addr % 4 - s.params.base) := by
  have hoff : addr - addr % 4 - s.params.base =
      addr - s.params.base - (addr - s.params.base) % 4 := by omega
  rw [hoff, targetOf_aligned]

/-- Settles O45: the base is a multiple of the window's size, so alignment commutes with taking the offset. -/
theorem onlyTheAlignedWindowIsAddressed : Obligations.OnlyTheAlignedWindowIsAddressed := by
  refine ⟨fun s addr hout => ?_, fun s addr hlegal => ?_⟩
  · have hsel : ¬ s.selects addr = true := by
      rw [State.selects_iff]
      simp only [windowBytes]
      omega
    exact ⟨if_neg hsel, fun _ _ => if_neg hsel⟩
  · obtain ⟨-, -, -, -, hwindow⟩ := hlegal
    have hbase : s.params.base % 4 = 0 := by
      simp only [windowBytes] at hwindow
      omega
    simp only [State.hostEvent_read, State.hostEvent_write, State.selects_aligned hbase]
    by_cases hsel : s.selects addr = true
    · have htarget := State.targetOf_aligned_addr hbase ((s.selects_iff addr).1 hsel).1
      simp only [if_pos hsel]
      exact ⟨State.hostRead_congr htarget, State.hostWrite_congr htarget⟩
    · simp [hsel]

/-! ### Writes to the registers -/

/-- A write at an offset of the window, reset released, is the target's write. -/
theorem State.hostEvent_write_released (hr : s.inReset = false) {off : Nat} (hoff : off < windowBytes)
    (d : Word) (be : BitVec 4) :
    s.hostEvent (.write (s.params.base + off) d be) = s.writeTarget (targetOf off) d be := by
  rw [s.hostEvent_write_base hoff, State.hostWrite_released hr]

theorem regAt_cases (n : Nat) : regAt n = .reserved ∨ ∃ r, regAt n = .reg r := by
  unfold regAt
  split <;> simp

/-- The register space holds registers and reserved offsets (20_memory.md R35). -/
theorem targetOf_registerSpace {off : Nat} (h : off < 0x10000) :
    targetOf off = .reserved ∨ ∃ r, targetOf off = .reg r := by
  have htarget : targetOf off = regAt ((off - off % 4) / 4) := if_pos (by omega)
  exact htarget ▸ regAt_cases _

/-- Settles O46: below the windows a write without all four byte enables reaches nothing. -/
theorem partialRegisterWriteIsIgnored : Obligations.PartialRegisterWriteIsIgnored := by
  refine ⟨fun s off d be hoff hbe => ?_, fun s d hr hidle => ?_⟩
  · refine State.hostEvent_write_ignored (hoff.trans (by decide)) ?_
    rcases targetOf_registerSpace hoff with htarget | ⟨r, htarget⟩ <;> rw [htarget]
    · rfl
    · exact if_neg hbe
  · have hwrite : s.hostEvent (.write (s.params.base + 0x00C) d 0xF) = s.writeReg .pos d :=
      State.hostEvent_write_reg hr .pos d
    rw [hwrite, State.writeReg, State.unlessBusy_idle hidle]

/-! ### The windows of an idle block -/

/-- Byte `j` of a word joined from four bytes, the first in the lowest bits. -/
theorem extractLsb'_lane (b : Nat → Byte) {j : Nat} (hj : j < 4) :
    (b 3 ++ b 2 ++ b 1 ++ b 0).extractLsb' (8 * j) 8 = b j := by
  have hnext {n k : Nat} (x : BitVec n) (y : Byte) :
      (x ++ y).extractLsb' (k + 8) 8 = x.extractLsb' k 8 :=
    BitVec.extractLsb'_append_eq_of_le (Nat.le_add_left 8 k)
  interval_cases j
  · exact BitVec.extractLsb'_append_eq_right
  · exact (hnext (k := 0) ..).trans BitVec.extractLsb'_append_eq_right
  · exact ((hnext (k := 8) ..).trans (hnext (k := 0) ..)).trans BitVec.extractLsb'_append_eq_right
  · exact ((hnext (k := 16) ..).trans (hnext (k := 8) ..)).trans BitVec.extractLsb'_append_eq_left

theorem windowWord_lane (size : Nat) (byteAt : Nat → Byte) (i : Nat) {j : Nat} (hj : j < 4) :
    (windowWord size byteAt i).extractLsb' (8 * j) 8 = if i + j < size then byteAt (i + j) else 0 :=
  extractLsb'_lane (fun j => if i + j < size then byteAt (i + j) else 0) hj

/-- What a window write leaves at the index of its lane `j` (20_memory.md R38). -/
theorem find_writeLanes_lane (size i : Nat) (d : Word) (be : BitVec 4) (m : Memory) {j : Nat} (hj : j < 4) :
    (writeLanes size i d be m).find (i + j) =
      if be.getLsbD j = true ∧ i + j < size then some (d.extractLsb' (8 * j) 8) else m.find (i + j) := by
  simp only [writeLanes, find_writeLane]
  interval_cases j <;> simp

theorem find_writeLanes_outside (size : Nat) {i a : Nat} (d : Word) (be : BitVec 4) (m : Memory)
    (ha : a < i ∨ i + 4 ≤ a) : (writeLanes size i d be m).find a = m.find a := by
  simp only [writeLanes, find_writeLane]
  rw [if_neg (by omega), if_neg (by omega), if_neg (by omega), if_neg (by omega)]

/-- `s` after a write to the IBUF window at byte index `i`. -/
abbrev State.storeIbuf (s : State) (i : Nat) (d : Word) (be : BitVec 4) : State :=
  { s with ibuf := writeLanes s.params.ibufBytes i d be s.ibuf }

/-- `s` after a write to the BUF window at byte index `i`. -/
abbrev State.storeBuf (s : State) (i : Nat) (d : Word) (be : BitVec 4) : State :=
  { s with buf := writeLanes s.params.bufBytes i d be s.buf }

theorem State.ibufByte_storeIbuf_lane (s : State) (i : Nat) (d : Word) (be : BitVec 4) {j : Nat} (hj : j < 4) :
    (s.storeIbuf i d be).ibufByte (i + j) =
      if be.getLsbD j = true ∧ i + j < s.params.ibufBytes then d.extractLsb' (8 * j) 8
      else s.ibufByte (i + j) := by
  simp only [State.ibufByte, find_writeLanes_lane _ _ _ _ _ hj]
  by_cases h : be.getLsbD j = true ∧ i + j < s.params.ibufBytes
  · simp only [if_pos h]
  · simp only [if_neg h]

theorem State.bufByte_storeBuf_lane (s : State) (i : Nat) (d : Word) (be : BitVec 4) {j : Nat} (hj : j < 4) :
    (s.storeBuf i d be).bufByte (i + j) =
      if be.getLsbD j = true ∧ i + j < s.params.bufBytes then d.extractLsb' (8 * j) 8
      else s.bufByte (i + j) := by
  simp only [State.bufByte, find_writeLanes_lane _ _ _ _ _ hj]
  by_cases h : be.getLsbD j = true ∧ i + j < s.params.bufBytes
  · simp only [if_pos h]
  · simp only [if_neg h]

theorem State.ibufByte_storeIbuf_outside (s : State) {i a : Nat} (d : Word) (be : BitVec 4)
    (ha : a < i ∨ i + 4 ≤ a) : (s.storeIbuf i d be).ibufByte a = s.ibufByte a := by
  simp only [State.ibufByte, find_writeLanes_outside _ _ _ _ ha]

theorem State.bufByte_storeBuf_outside (s : State) {i a : Nat} (d : Word) (be : BitVec 4)
    (ha : a < i ∨ i + 4 ≤ a) : (s.storeBuf i d be).bufByte a = s.bufByte a := by
  simp only [State.bufByte, find_writeLanes_outside _ _ _ _ ha]

/-- The target of a word of the IBUF window. -/
theorem targetOf_ibuf_word {w : Nat} (hw : 4 * w < 0x10000) : targetOf (0x10000 + 4 * w) = .ibuf (4 * w) := by
  have hindex : 0x10000 + 4 * w - (0x10000 + 4 * w) % 4 - 0x10000 = 4 * w := by omega
  rw [targetOf_ibuf (by omega) (by omega), hindex]

/-- The target of a word of the BUF window. -/
theorem targetOf_buf_word {w : Nat} (hw : 4 * w < 0x10000) : targetOf (0x20000 + 4 * w) = .buf (4 * w) := by
  have hindex : 0x20000 + 4 * w - (0x20000 + 4 * w) % 4 - 0x20000 = 4 * w := by omega
  rw [targetOf_buf (by omega) (by omega), hindex]

/-- With BUSY = 0 every read returns the current value of what it reaches (20_memory.md R43). -/
theorem State.hostEvent_read_idle (hr : s.inReset = false) (hidle : s.busy = false) {off : Nat}
    (hoff : off < windowBytes) : s.hostEvent (.read (s.params.base + off)) =
      { s with reads := s.currentValue (targetOf off) :: s.reads } :=
  State.hostEvent_read_current hoff hr (by simp [hidle])

theorem State.hostEvent_write_ibuf (hr : s.inReset = false) (hidle : s.busy = false) {w : Nat}
    (hw : 4 * w < 0x10000) (d : Word) (be : BitVec 4) :
    s.hostEvent (.write (s.params.base + 0x10000 + 4 * w) d be) = s.storeIbuf (4 * w) d be := by
  rw [Nat.add_assoc, State.hostEvent_write_released hr (by simp only [windowBytes]; omega),
    targetOf_ibuf_word hw]
  exact State.unlessBusy_idle hidle _

theorem State.hostEvent_write_buf (hr : s.inReset = false) (hidle : s.busy = false) {w : Nat}
    (hw : 4 * w < 0x10000) (d : Word) (be : BitVec 4) :
    s.hostEvent (.write (s.params.base + 0x20000 + 4 * w) d be) = s.storeBuf (4 * w) d be := by
  rw [Nat.add_assoc, State.hostEvent_write_released hr (by simp only [windowBytes]; omega),
    targetOf_buf_word hw]
  exact State.unlessBusy_idle hidle _

theorem State.hostEvent_read_ibuf (hr : s.inReset = false) (hidle : s.busy = false) {w : Nat}
    (hw : 4 * w < 0x10000) : s.hostEvent (.read (s.params.base + 0x10000 + 4 * w)) =
      { s with reads := windowWord s.params.ibufBytes s.ibufByte (4 * w) :: s.reads } := by
  rw [Nat.add_assoc, State.hostEvent_read_idle hr hidle (by simp only [windowBytes]; omega),
    targetOf_ibuf_word hw]
  rfl

theorem State.hostEvent_read_buf (hr : s.inReset = false) (hidle : s.busy = false) {w : Nat}
    (hw : 4 * w < 0x10000) : s.hostEvent (.read (s.params.base + 0x20000 + 4 * w)) =
      { s with reads := windowWord s.params.bufBytes s.bufByte (4 * w) :: s.reads } := by
  rw [Nat.add_assoc, State.hostEvent_read_idle hr hidle (by simp only [windowBytes]; omega),
    targetOf_buf_word hw]
  rfl

/-- Settles O47: the lanes of the word read and of the four bytes written. -/
theorem windowAccessIsLittleEndian : Obligations.WindowAccessIsLittleEndian := by
  refine ⟨fun s w hw hr hidle => ⟨?_, ?_⟩, fun s w d be hw hr hidle => ⟨?_, ?_⟩, fun s hr hidle hsize => ?_⟩
  · exact ⟨_, State.hostEvent_read_ibuf hr hidle hw, fun j hj => windowWord_lane _ _ _ hj⟩
  · exact ⟨_, State.hostEvent_read_buf hr hidle hw, fun j hj => windowWord_lane _ _ _ hj⟩
  · exact ⟨_, State.hostEvent_write_ibuf hr hidle hw d be, rfl,
      fun j hj => s.ibufByte_storeIbuf_lane (4 * w) d be hj,
      fun a ha => s.ibufByte_storeIbuf_outside d be ha⟩
  · exact ⟨_, State.hostEvent_write_buf hr hidle hw d be, rfl,
      fun j hj => s.bufByte_storeBuf_lane (4 * w) d be hj,
      fun a ha => s.bufByte_storeBuf_outside d be ha⟩
  · have hwrite : s.hostEvent (.write (s.params.base + 0x10000) 0x03000000 0xF) =
        s.storeIbuf 0 0x03000000 0xF := State.hostEvent_write_ibuf (w := 0) hr hidle (by omega) _ _
    have hbyte {j : Nat} (hj : j < 4) :
        (s.storeIbuf 0 0x03000000 0xF).ibufByte j = (0x03000000 : Word).extractLsb' (8 * j) 8 := by
      have hlane := s.ibufByte_storeIbuf_lane 0 0x03000000 0xF hj
      have henabled : (0xF : BitVec 4).getLsbD j = true := by
        interval_cases j <;> rfl
      rwa [Nat.zero_add, if_pos ⟨henabled, by omega⟩] at hlane
    have hbytes : (List.range 4).map (s.storeIbuf 0 0x03000000 0xF).ibufByte =
        (List.range 4).map fun j => (0x03000000 : Word).extractLsb' (8 * j) 8 :=
      List.map_congr_left fun j hj => hbyte (List.mem_range.1 hj)
    rw [hwrite, hbytes]
    decide

/-! ### While BUSY = 1 -/

/-- Any write to a window while BUSY = 1 is dropped (20_memory.md R42; log 8). -/
theorem State.hostEvent_write_window_busy (hr : s.inReset = false) (hbusy : s.busy = true) {off : Nat}
    (hlo : 0x10000 ≤ off) (hhi : off < 0x30000) (d : Word) (be : BitVec 4) :
    s.hostEvent (.write (s.params.base + off) d be) = { s with ovr := true } := by
  rw [State.hostEvent_write_released hr (hhi.trans (by decide))]
  rcases Nat.lt_or_ge off 0x20000 with h | h
  · rw [targetOf_ibuf hlo h]
    exact State.unlessBusy_busy hbusy _
  · rw [targetOf_buf h hhi]
    exact State.unlessBusy_busy hbusy _

theorem State.writeReg_busy (hbusy : s.busy = true) {r : Reg} (hr : r ∈ [Reg.cmd, .pos, .len, .arg0, .arg1])
    (d : Word) : s.writeReg r d = { s with ovr := true } := by
  have hdrop := State.unlessBusy_busy hbusy
  simp only [List.mem_cons, List.not_mem_nil, or_false] at hr
  rcases hr with rfl | rfl | rfl | rfl | rfl <;> exact hdrop _

theorem writeReg_readOnly {r : Reg} (hr : r ∈ [Reg.valLo, .valHi, .config, .ibufSize, .bufSize]) (s : State)
    (d : Word) : s.writeReg r d = s := by
  simp only [List.mem_cons, List.not_mem_nil, or_false] at hr
  rcases hr with rfl | rfl | rfl | rfl | rfl <;> rfl

/-- Settles O48: each full write is the register's write, which BUSY = 1 drops or leaves alone. -/
theorem busyWritesAreDropped : Obligations.BusyWritesAreDropped := by
  intro s d hr hbusy wr
  have hwr (r : Reg) : wr r.offset 0xF = s.writeReg r d := State.hostEvent_write_reg hr r d
  exact ⟨hwr .status, hwr .ctrl, fun r hmem => (hwr r).trans (State.writeReg_busy hbusy hmem d),
    fun off be hlo hhi => State.hostEvent_write_window_busy hr hbusy hlo hhi d be,
    fun r hmem => (hwr r).trans (writeReg_readOnly hmem s d)⟩

/-- A read of an open target while BUSY = 1 returns a fresh free value (20_memory.md R43). -/
theorem State.hostEvent_read_open (hbusy : s.busy = true) {off : Nat} (hoff : off < windowBytes)
    (hopen : (targetOf off).openWhileBusy = true) : s.hostEvent (.read (s.params.base + off)) =
      { s with reads := Config.freeWord s.draws :: s.reads, draws := s.draws + 1 } := by
  rw [s.hostEvent_read_base hoff, State.hostRead_any (by simp [hbusy, hopen])]

/-- A read of any other target returns its current value, BUSY or not. -/
theorem State.hostEvent_read_closed (hr : s.inReset = false) {off : Nat} (hoff : off < windowBytes)
    (hclosed : (targetOf off).openWhileBusy = false) : s.hostEvent (.read (s.params.base + off)) =
      { s with reads := s.currentValue (targetOf off) :: s.reads } :=
  State.hostEvent_read_current hoff hr (by simp [hclosed])

/-- The open offsets: POS, LEN, VAL_LO, VAL_HI and the BUF window (20_memory.md R43). -/
theorem openWhileBusy_targetOf {off : Nat}
    (h : off ∈ [0x00C, 0x010, 0x014, 0x018] ∨ (0x20000 ≤ off ∧ off < 0x30000)) :
    off < windowBytes ∧ (targetOf off).openWhileBusy = true := by
  rcases h with h | ⟨hlo, hhi⟩
  · revert off
    decide
  · exact ⟨hhi.trans (by decide), by rw [targetOf_buf hlo hhi]; rfl⟩

theorem openWhileBusy_reg {r : Reg}
    (h : r ∈ [Reg.cmd, .status, .ctrl, .arg0, .arg1, .config, .ibufSize, .bufSize]) :
    (Target.reg r).openWhileBusy = false := by
  revert r
  decide

/-- Settles O49: by whether the offset's target is open; the reserved offsets are O44's. -/
theorem busyReadsReturnAnyValue : Obligations.BusyReadsReturnAnyValue := by
  refine ⟨fun s hr hbusy => ⟨fun off h => ?_, fun r h => ?_, fun off hlo hhi => ?_, fun off h => ?_⟩,
    fun s off hr hidle hoff => State.hostEvent_read_idle hr hidle hoff⟩
  · obtain ⟨hoff, hopen⟩ := openWhileBusy_targetOf h
    exact State.hostEvent_read_open hbusy hoff hopen
  · have htarget := targetOf_offset r
    rw [State.hostEvent_read_closed hr (r.offset_lt.trans (by decide))
      (htarget ▸ openWhileBusy_reg h), htarget]
    rfl
  · refine State.hostEvent_read_closed hr (hhi.trans (by decide)) ?_
    rw [targetOf_ibuf hlo hhi]
    rfl
  · exact (reservedOffsetsReadZero s off h).1 hr

end Sys2Proof.Machine
end

section
/-! The command word's encoding: the decoder takes exactly the encodings of well-formed commands (O1, O2), which
are the words of R52 (O3) and of the table of R53 (O4); and words written out (O5). -/

namespace Sys2Proof.Machine

variable {w v : Word} {i j : Instr}

/-! ### A word is its three fields -/

theorem word_eq_fields (w : Word) : w = opField w ++ rsvField w ++ w.extractLsb' 0 16 := by
  have hhigh : opField w ++ rsvField w = w.extractLsb' 16 16 :=
    BitVec.extractLsb'_append_extractLsb'_eq_extractLsb' rfl
  have hword : w.extractLsb' 16 16 ++ w.extractLsb' 0 16 = w.extractLsb' 0 32 :=
    BitVec.extractLsb'_append_extractLsb'_eq_extractLsb' rfl
  rw [hhigh, hword, BitVec.extractLsb'_eq_self]

/-- OP, RSV and N make up the whole word (30_encoding.md R49). -/
theorem word_eq_iff_fields :
    w = v ↔ opField w = opField v ∧ rsvField w = rsvField v ∧ countField w = countField v := by
  refine ⟨fun h => h ▸ ⟨rfl, rfl, rfl⟩, fun ⟨hop, hrsv, hn⟩ => ?_⟩
  rw [word_eq_fields w, word_eq_fields v, hop, hrsv, BitVec.eq_of_toNat_eq hn]

theorem encode_eq_iff_fields (h : i.wellFormed = true) :
    encode i = w ↔ opField w = i.opcode ∧ rsvField w = 0 ∧ countField w = i.count := by
  obtain ⟨hop, hrsv, hn⟩ := fields_encode h
  rw [eq_comm, word_eq_iff_fields, hop, hrsv, hn]

/-- Bits 27:0 are RSV and N. -/
theorem extractLsb'_eq_zero_iff_fields :
    w.extractLsb' 0 28 = 0 ↔ rsvField w = 0 ∧ countField w = 0 := by
  have hlow : rsvField w ++ w.extractLsb' 0 16 = w.extractLsb' 0 28 :=
    BitVec.extractLsb'_append_extractLsb'_eq_extractLsb' rfl
  rw [← hlow]
  refine ⟨fun h => ⟨?_, ?_⟩, fun ⟨hrsv, hn⟩ => ?_⟩
  · exact BitVec.extractLsb'_append_eq_left.symm.trans (congrArg (BitVec.extractLsb' 16 12) h)
  · exact congrArg BitVec.toNat
      (BitVec.extractLsb'_append_eq_right.symm.trans (congrArg (BitVec.extractLsb' 0 16) h))
  · have hcount : w.extractLsb' 0 16 = 0 := BitVec.eq_of_toNat_eq hn
    rw [hrsv, hcount]
    rfl

/-! ### The words the decoder takes -/

/-- The largest count R52 allows a command's encoding. -/
def countLimit : Instr → Nat
  | .rdb _ => 64
  | .rdbu _ => 64
  | .rdf => 0
  | .rdue => 0
  | .rdse => 0
  | .hsp _ => 65535
  | .epf => 0

theorem wellFormed_iff_count_le (i : Instr) : i.wellFormed = true ↔ i.count ≤ countLimit i := by
  cases i <;> simp [Instr.wellFormed, Instr.count, countLimit]

theorem decodeCount_eq_legal_iff {limit : Nat} {make : Nat → Instr} : decodeCount limit make w = .legal i ↔
    rsvField w = 0 ∧ countField w ≤ limit ∧ make (countField w) = i := by
  rw [decodeCount]
  split
  · next hrsv => exact iff_of_false (by simp) fun h => hrsv h.1
  · next hrsv =>
    split
    · next hn => exact iff_of_false (by simp) fun h => absurd h.2.1 (by omega)
    · next hn => simp only [Decoded.legal.injEq, not_not.1 hrsv, Nat.not_lt.1 hn, true_and]

/-- What the decoder's answer says of the word (30_encoding.md R49, R51, R52). -/
theorem fields_of_decode (h : decode w = .legal i) :
    i.wellFormed = true ∧ opField w = i.opcode ∧ rsvField w = 0 ∧ countField w = i.count := by
  rw [decode] at h
  split at h
  case h_1 hop | h_2 hop | h_6 hop =>
    obtain ⟨hrsv, hn, rfl⟩ := decodeCount_eq_legal_iff.1 h
    exact ⟨(wellFormed_iff_count_le _).2 hn, BitVec.eq_of_toNat_eq hop, hrsv, rfl⟩
  case h_3 hop | h_4 hop | h_5 hop | h_7 hop =>
    obtain ⟨hrsv, hn, rfl⟩ := decodeCount_eq_legal_iff.1 h
    exact ⟨rfl, BitVec.eq_of_toNat_eq hop, hrsv, Nat.le_zero.1 hn⟩
  case h_8 => cases h

theorem decode_eq_legal_iff : decode w = .legal i ↔ i.wellFormed = true ∧ encode i = w := by
  constructor
  · intro h
    obtain ⟨hwf, hfields⟩ := fields_of_decode h
    exact ⟨hwf, (encode_eq_iff_fields hwf).2 hfields⟩
  · rintro ⟨hwf, rfl⟩
    exact decode_encode hwf

theorem decode_of_fields (hop : opField w = i.opcode) (hrsv : rsvField w = 0) (hn : countField w = i.count)
    (hle : i.count ≤ countLimit i) : decode w = .legal i := by
  have hwf := (wellFormed_iff_count_le i).2 hle
  exact decode_eq_legal_iff.2 ⟨hwf, (encode_eq_iff_fields hwf).2 ⟨hop, hrsv, hn⟩⟩

/-- Settles O1, by the fields of the encoding. -/
theorem decodeOfEncodeIsTheCommand : Obligations.DecodeOfEncodeIsTheCommand := fun _ h => decode_encode h

/-- Settles O2: the decoded command has the word's three fields, which are the whole word. -/
theorem legalWordIsTheEncoding : Obligations.LegalWordIsTheEncoding := fun _ _ => decode_eq_legal_iff.1

/-! ### The legal words, by their fields -/

/-- The mnemonic fixes the opcode and the range of the count. -/
theorem opcode_eq_of_mnemonic_eq (h : i.mnemonic = j.mnemonic) :
    i.opcode = j.opcode ∧ countLimit i = countLimit j := by
  cases i <;> cases j
  case rdb.rdb | rdbu.rdbu | rdf.rdf | rdue.rdue | rdse.rdse | hsp.hsp | epf.epf => exact ⟨rfl, rfl⟩
  all_goals simp [Instr.mnemonic] at h

/-- The words of one mnemonic (30_encoding.md R51, R52). -/
theorem exists_legal_mnemonic_iff (j : Instr) : (∃ i, decode w = .legal i ∧ i.mnemonic = j.mnemonic) ↔
    opField w = j.opcode ∧ rsvField w = 0 ∧ countField w ≤ countLimit j := by
  constructor
  · rintro ⟨i, h, hname⟩
    obtain ⟨hwf, hop, hrsv, hn⟩ := fields_of_decode h
    obtain ⟨hopcode, hlimit⟩ := opcode_eq_of_mnemonic_eq hname
    exact ⟨hop.trans hopcode, hrsv, hn ▸ hlimit ▸ (wellFormed_iff_count_le i).1 hwf⟩
  · rintro ⟨hop, hrsv, hn⟩
    cases j with
    | rdb => exact ⟨.rdb (countField w), decode_of_fields hop hrsv rfl hn, rfl⟩
    | rdbu => exact ⟨.rdbu (countField w), decode_of_fields hop hrsv rfl hn, rfl⟩
    | rdf => exact ⟨.rdf, decode_of_fields hop hrsv (Nat.le_zero.1 hn) le_rfl, rfl⟩
    | rdue => exact ⟨.rdue, decode_of_fields hop hrsv (Nat.le_zero.1 hn) le_rfl, rfl⟩
    | rdse => exact ⟨.rdse, decode_of_fields hop hrsv (Nat.le_zero.1 hn) le_rfl, rfl⟩
    | hsp => exact ⟨.hsp (countField w), decode_of_fields hop hrsv rfl hn, rfl⟩
    | epf => exact ⟨.epf, decode_of_fields hop hrsv (Nat.le_zero.1 hn) le_rfl, rfl⟩

theorem exists_legal_iff : (∃ i, decode w = .legal i) ↔
    ∃ j : Instr, opField w = j.opcode ∧ rsvField w = 0 ∧ countField w ≤ countLimit j := by
  constructor
  · rintro ⟨i, h⟩
    exact ⟨i, (exists_legal_mnemonic_iff i).1 ⟨i, h, rfl⟩⟩
  · rintro ⟨j, h⟩
    obtain ⟨i, hi, -⟩ := (exists_legal_mnemonic_iff j).2 h
    exact ⟨i, hi⟩

theorem countField_lt (w : Word) : countField w < 65536 := (w.extractLsb' 0 16).isLt

/-- The three conditions of R52, by the command's range of N. -/
theorem exists_legal_iff_conditions : (∃ i, decode w = .legal i) ↔
    ((opField w = 0x1 ∨ opField w = 0x2) ∧ rsvField w = 0 ∧ countField w ≤ 64) ∨
    ((opField w = 0x3 ∨ opField w = 0x4 ∨ opField w = 0x5 ∨ opField w = 0x7) ∧ w.extractLsb' 0 28 = 0) ∨
    (opField w = 0x6 ∧ rsvField w = 0) := by
  rw [exists_legal_iff, extractLsb'_eq_zero_iff_fields]
  constructor
  · rintro ⟨j, hop, hrsv, hn⟩
    cases j with
    | rdb => exact .inl ⟨.inl hop, hrsv, hn⟩
    | rdbu => exact .inl ⟨.inr hop, hrsv, hn⟩
    | rdf => exact .inr (.inl ⟨.inl hop, hrsv, Nat.le_zero.1 hn⟩)
    | rdue => exact .inr (.inl ⟨.inr (.inl hop), hrsv, Nat.le_zero.1 hn⟩)
    | rdse => exact .inr (.inl ⟨.inr (.inr (.inl hop)), hrsv, Nat.le_zero.1 hn⟩)
    | hsp => exact .inr (.inr ⟨hop, hrsv⟩)
    | epf => exact .inr (.inl ⟨.inr (.inr (.inr hop)), hrsv, Nat.le_zero.1 hn⟩)
  · rintro (⟨hop | hop, hrsv, hn⟩ | ⟨hop | hop | hop | hop, hrsv, hn⟩ | ⟨hop, hrsv⟩)
    · exact ⟨.rdb 0, hop, hrsv, hn⟩
    · exact ⟨.rdbu 0, hop, hrsv, hn⟩
    · exact ⟨.rdf, hop, hrsv, hn.le⟩
    · exact ⟨.rdue, hop, hrsv, hn.le⟩
    · exact ⟨.rdse, hop, hrsv, hn.le⟩
    · exact ⟨.epf, hop, hrsv, hn.le⟩
    · exact ⟨.hsp 0, hop, hrsv, Nat.le_of_lt_succ (countField_lt w)⟩

/-- Settles O3: the conditions are those of the fields, and any other word is answered with code 3. -/
theorem legalWordsExactly : Obligations.LegalWordsExactly := by
  refine ⟨fun w => exists_legal_iff_conditions, fun s hillegal => ?_⟩
  rcases s.runCommand_cases with ⟨i, hlegal, -⟩ | ⟨why, -, hrun⟩
  · exact absurd ⟨i, hlegal⟩ hillegal
  · exact hrun

/-! ### The match and mask table -/

/-- A mask that keeps OP and RSV alone selects by these two fields. -/
theorem and_opRsvMask_eq_iff {m : Word} (hm : countField m = 0) :
    w &&& 0xFFFF0000 = m ↔ opField w = opField m ∧ rsvField w = rsvField m := by
  have hop : opField (w &&& 0xFFFF0000) = opField w := BitVec.extractLsb'_and.trans BitVec.and_allOnes
  have hrsv : rsvField (w &&& 0xFFFF0000) = rsvField w := BitVec.extractLsb'_and.trans BitVec.and_allOnes
  have hlow : (w &&& 0xFFFF0000).extractLsb' 0 16 = 0 := BitVec.extractLsb'_and.trans BitVec.and_zero
  have hn : countField (w &&& 0xFFFF0000) = 0 := congrArg BitVec.toNat hlow
  rw [word_eq_iff_fields, hop, hrsv, hn, hm]
  simp

/-! The three kinds of row: OP and RSV with a range of N, OP and RSV with any N, and the whole word. -/

theorem selects_range_iff (name : String) {m : Word} (hm : countField m = 0) (hrsv : rsvField m = 0)
    (limit : Nat) : (EncodingRow.mk name m 0xFFFF0000 (some limit)).selects w = true ↔
      opField w = opField m ∧ rsvField w = 0 ∧ countField w ≤ limit := by
  simp only [EncodingRow.selects, Bool.and_eq_true, beq_iff_eq, decide_eq_true_eq, and_opRsvMask_eq_iff hm, hrsv,
    and_assoc]

theorem selects_anyCount_iff (name : String) {m : Word} (hm : countField m = 0) (hrsv : rsvField m = 0) :
    (EncodingRow.mk name m 0xFFFF0000 none).selects w = true ↔ opField w = opField m ∧ rsvField w = 0 := by
  simp only [EncodingRow.selects, Bool.and_true, beq_iff_eq, and_opRsvMask_eq_iff hm, hrsv]

theorem selects_fixed_iff (name : String) {m : Word} (hm : countField m = 0) (hrsv : rsvField m = 0) :
    (EncodingRow.mk name m 0xFFFFFFFF none).selects w = true ↔
      opField w = opField m ∧ rsvField w = 0 ∧ countField w ≤ 0 := by
  have hall : w &&& 0xFFFFFFFF = w := BitVec.and_allOnes
  simp only [EncodingRow.selects, Bool.and_true, beq_iff_eq, hall, word_eq_iff_fields (v := m), hm, hrsv,
    Nat.le_zero]

/-- A row of the table whose match bits are OP of the command `j` and RSV = 0 (30_encoding.md R53). -/
theorem selects_iff_exists_legal {r : EncodingRow} (j : Instr) (hname : j.mnemonic = r.mnemonic)
    (hselects : r.selects w = true ↔ opField w = j.opcode ∧ rsvField w = 0 ∧ countField w ≤ countLimit j) :
    r.selects w = true ↔ ∃ i, decode w = .legal i ∧ i.mnemonic = r.mnemonic := by
  rw [hselects, ← hname, exists_legal_mnemonic_iff]

/-- Settles O4: row by row, the fields that match and mask ask for are those of the mnemonic's words. -/
theorem matchMaskTableAgrees : Obligations.MatchMaskTableAgrees := by
  refine ⟨fun w r hr => ?_, by decide, by decide, by decide, by decide, ?_⟩
  · simp only [encodingRows, List.mem_cons, List.not_mem_nil, or_false] at hr
    rcases hr with rfl | rfl | rfl | rfl | rfl | rfl | rfl
    · exact selects_iff_exists_legal (.rdb 0) rfl (selects_range_iff _ rfl rfl 64)
    · exact selects_iff_exists_legal (.rdbu 0) rfl (selects_range_iff _ rfl rfl 64)
    · exact selects_iff_exists_legal .rdf rfl (selects_fixed_iff _ rfl rfl)
    · exact selects_iff_exists_legal .rdue rfl (selects_fixed_iff _ rfl rfl)
    · exact selects_iff_exists_legal .rdse rfl (selects_fixed_iff _ rfl rfl)
    · refine selects_iff_exists_legal (.hsp 0) rfl ((selects_anyCount_iff _ rfl rfl).trans ?_)
      exact and_congr_right fun _ => (and_iff_left (Nat.le_of_lt_succ (countField_lt w))).symm
    · exact selects_iff_exists_legal .epf rfl (selects_fixed_iff _ rfl rfl)
  · rintro ⟨i, h⟩
    have hillegal : decode 0x10000041 = .illegal .countOutOfRange := by decide
    cases hillegal.symm.trans h

/-- Settles O5: each word is the encoding of its command, but for 0, whose OP is reserved. -/
theorem writtenOutWordsDecode : Obligations.WrittenOutWordsDecode :=
  ⟨decode_encode (i := .rdb 13) rfl, decode_encode (i := .rdbu 64) rfl, decode_encode (i := .rdf) rfl,
    decode_encode (i := .rdue) rfl, decode_encode (i := .rdse) rfl, decode_encode (i := .hsp 65535) rfl,
    decode_encode (i := .epf) rfl, rfl⟩

end Sys2Proof.Machine
end

section
/-! Exp-Golomb codes (O16): each is some zeros, a 1 and as many bits, so that no code begins another. -/

namespace Sys2Proof.Machine

variable {s : State}

/-! ### Bit strings and the numbers they write -/

/-- Bit strings of one length that write the same number are equal. -/
theorem eq_of_uint_eq {bs cs : List Bool} (hlen : bs.length = cs.length) (h : uint bs = uint cs) : bs = cs := by
  induction bs generalizing cs with
  | nil => exact (List.eq_nil_of_length_eq_zero hlen.symm).symm
  | cons b bs ih =>
    cases cs with
    | nil => simp at hlen
    | cons c cs =>
      have hlen' : bs.length = cs.length := Nat.succ.inj hlen
      have hb := uint_lt bs
      have hc := uint_lt cs
      rw [uint_cons, uint_cons, hlen'] at h
      rw [hlen'] at hb
      cases b <;> cases c <;> simp only [Bool.toNat_true, Bool.toNat_false, Nat.one_mul, Nat.zero_mul] at h
      · rw [ih hlen' (by omega)]
      · omega
      · omega
      · rw [ih hlen' (by omega)]

theorem natBits_uint (bs : List Bool) : natBits bs.length (uint bs) = bs :=
  eq_of_uint_eq (natBits_length _ _) ((uint_natBits _ _).trans (Nat.mod_eq_of_lt (uint_lt bs)))

/-! ### The codes -/

theorem log2_succ_eq_iff (k v : Nat) : (v + 1).log2 = k ↔ 2 ^ k - 1 ≤ v ∧ v ≤ 2 ^ (k + 1) - 2 := by
  have hpos := Nat.two_pow_pos k
  rw [Nat.log2_eq_iff (Nat.succ_ne_zero v), Nat.pow_succ]
  omega

/-- A code of `k` zeros stands for `2^k - 1` and the number its suffix writes (30_encoding.md R56). -/
theorem encUE_uint (bs : List Bool) :
    encUE (2 ^ bs.length - 1 + uint bs) = List.replicate bs.length false ++ true :: bs := by
  have hlt := uint_lt bs
  have hlog : (2 ^ bs.length - 1 + uint bs + 1).log2 = bs.length :=
    (log2_succ_eq_iff _ _).2 (by rw [Nat.pow_succ]; omega)
  have hsuffix : 2 ^ bs.length - 1 + uint bs + 1 - 2 ^ bs.length = uint bs := by omega
  simp only [encUE, hlog, hsuffix, natBits_uint]

/-- Every number has such a code. -/
theorem exists_eq_uint (v : Nat) : ∃ bs : List Bool, v = 2 ^ bs.length - 1 + uint bs := by
  obtain ⟨hlo, hhi⟩ := (log2_succ_eq_iff _ v).1 rfl
  generalize (v + 1).log2 = k at hlo hhi
  have hpos := Nat.two_pow_pos k
  rw [Nat.pow_succ] at hhi
  refine ⟨natBits k (v + 1 - 2 ^ k), ?_⟩
  rw [natBits_length, uint_natBits, Nat.mod_eq_of_lt (by omega)]
  omega

theorem encUE_length (v : Nat) : (encUE v).length = 2 * (v + 1).log2 + 1 := by
  simp only [encUE, List.length_append, List.length_replicate, List.length_cons, natBits_length]
  omega

/-- If zeros, a 1 and more begin zeros, a 1 and more, the zeros are as many. -/
theorem of_isPrefix_zeros_one {k l : Nat} {bs cs : List Bool}
    (h : List.replicate k false ++ true :: bs <+: List.replicate l false ++ true :: cs) : k = l ∧ bs <+: cs := by
  induction k generalizing l with
  | zero =>
    cases l with
    | zero => exact ⟨rfl, (List.cons_prefix_cons.1 h).2⟩
    | succ l => cases (List.cons_prefix_cons.1 h).1
  | succ k ih =>
    cases l with
    | zero => cases (List.cons_prefix_cons.1 h).1
    | succ l =>
      obtain ⟨hkl, hbc⟩ := ih (List.cons_prefix_cons.1 h).2
      exact ⟨congrArg Nat.succ hkl, hbc⟩

theorem eq_of_encUE_isPrefix {v w : Nat} (h : encUE v <+: encUE w) : v = w := by
  obtain ⟨bs, -, rfl⟩ := exists_eq_uint v
  obtain ⟨cs, -, rfl⟩ := exists_eq_uint w
  rw [encUE_uint, encUE_uint] at h
  obtain ⟨hlen, hbc⟩ := of_isPrefix_zeros_one h
  rw [hbc.eq_of_length hlen]

/-! ### The numbers the block decodes -/

theorem log2_succ_le_iff (k v : Nat) : (v + 1).log2 ≤ k ↔ v ≤ 2 ^ (k + 1) - 2 := by
  have hpos := Nat.two_pow_pos k
  rw [← Nat.lt_succ_iff, Nat.log2_lt (Nat.succ_ne_zero v), Nat.pow_succ]
  omega

/-- An idle block whose buffer holds the longest code of K_MAX = 31: 31 zeros, 32 ones and a bit to spare. -/
def longestCode : State :=
  { State.reset with
    buf := [(0, 0x00), (1, 0x00), (2, 0x00), (3, 0x01), (4, 0xFF), (5, 0xFF), (6, 0xFF), (7, 0xFE)], len := 8 }

theorem decodeUE_longestCode : longestCode.decodeUE = .read (2 ^ 32 - 2) 63 := by
  decide

/-- Settles O16: a code begins another only if their zeros, and so their suffixes, are the same. -/
theorem expGolombCodesAreUnique : Obligations.ExpGolombCodesAreUnique := by
  refine ⟨encUE_uint, encUE_length, log2_succ_eq_iff, fun v w => eq_of_encUE_isPrefix, fun s v p h => ?_,
    longestCode, rfl, 63, decodeUE_longestCode⟩
  obtain ⟨hv, -⟩ := State.decodeUE_bounds h
  refine ⟨(log2_succ_le_iff _ _).2 hv, fun hk => ?_⟩
  rwa [hk] at hv

end Sys2Proof.Machine
end

section
/-! The signed Exp-Golomb mapping (O17). -/

namespace Sys2Proof.Machine

theorem signedOf_odd {v : Nat} (h : v % 2 = 1) : signedOf v = ((v + 1) / 2 : Nat) := if_pos h

theorem signedOf_even {v : Nat} (h : v % 2 = 0) : signedOf v = -((v / 2 : Nat) : Int) :=
  if_neg (by simp [h])

/-- `(-1)^(v+1) * ceil(v/2)` (30_encoding.md R58). -/
theorem signedOf_eq_formula (v : Nat) : signedOf v = (-1) ^ (v + 1) * (((v + 1) / 2 : Nat) : Int) := by
  rcases Nat.mod_two_eq_zero_or_one v with h | h
  · have hhalf : v / 2 = (v + 1) / 2 := by omega
    rw [signedOf_even h, hhalf, Odd.neg_one_pow (by rw [Nat.odd_iff]; omega), neg_one_mul]
  · rw [signedOf_odd h, Even.neg_one_pow (by rw [Nat.even_iff]; omega), one_mul]

/-- The number whose signed value is `x` (30_encoding.md R58). -/
def unsignedOf (x : Int) : Nat := (if 0 < x then 2 * x - 1 else -2 * x).toNat

theorem signedOf_unsignedOf (x : Int) : signedOf (unsignedOf x) = x := by
  rw [signedOf, unsignedOf]
  split <;> split <;> omega

theorem unsignedOf_signedOf (v : Nat) : unsignedOf (signedOf v) = v := by
  rw [signedOf, unsignedOf]
  split <;> split <;> omega

theorem signedOf_bounds {v : Nat} (h : v ≤ 2 ^ 32 - 2) :
    -(2 ^ 31 - 1) ≤ signedOf v ∧ signedOf v ≤ 2 ^ 31 - 1 := by
  rw [signedOf]
  split <;> omega

/-- Settles O17: `unsignedOf` is the inverse. -/
theorem signedMappingIsBijective : Obligations.SignedMappingIsBijective :=
  ⟨signedOf_eq_formula, fun _ => signedOf_odd, fun _ => signedOf_even,
    Function.bijective_iff_has_inverse.2 ⟨unsignedOf, unsignedOf_signedOf, signedOf_unsignedOf⟩,
    signedOf_unsignedOf, fun _ => signedOf_bounds, by decide, by decide⟩

end Sys2Proof.Machine
end

section
/-! The store lines of a host program (O50): one write per byte, each of which stores its byte. -/

namespace Sys2Proof.Machine

variable {s : State}

/-! ### One byte's write -/

/-- A window write whose data and byte enables are lane `j`'s alone (20_memory.md R38). -/
theorem writeLanes_single {size i j : Nat} (hj : j < 4) (hi : i + j < size) (b : Byte) (m : Memory) :
    writeLanes size i (b.zeroExtend 32 <<< (8 * j)) (1 <<< j) m = m.write (i + j) b := by
  have hbyte : (b.zeroExtend 32 <<< (8 * j)).extractLsb' (8 * j) 8 = b := by
    apply BitVec.eq_of_getLsbD_eq
    intro k hk
    have hlt : 8 * j + k < 32 := by omega
    simp [hk, hlt]
  interval_cases j <;> simp_all [writeLanes, writeLane]

/-- The lane of a byte's write is the byte's place in its word. -/
theorem writeLanes_byte {size i : Nat} (hi : i < size) (b : Byte) (m : Memory) :
    writeLanes size (4 * (i / 4)) (b.zeroExtend 32 <<< (8 * (i % 4))) (1 <<< (i % 4)) m = m.write i b := by
  rw [writeLanes_single (Nat.mod_lt i (by decide)) (by omega), Nat.div_add_mod]

/-- A byte's write reaches the word its index lies in (20_memory.md R36). -/
theorem State.hostEvent_byteEvent (hr : s.inReset = false) {window i : Nat} (hwindow : window % 4 = 0)
    (hoff : window + i < windowBytes) (b : Byte) : s.hostEvent (byteEvent s.params.base window i b) =
      s.writeTarget (targetOf (window + 4 * (i / 4))) (b.zeroExtend 32 <<< (8 * (i % 4))) (1 <<< (i % 4)) := by
  have hword : window + 4 * (i / 4) = window + i - (window + i) % 4 := by omega
  rw [byteEvent, Nat.add_assoc, State.hostEvent_write_released hr hoff, hword, targetOf_aligned]

theorem State.hostEvent_byteEvent_ibuf (hr : s.inReset = false) (hidle : s.busy = false) {i : Nat}
    (hi : i < s.params.ibufBytes) (hsize : s.params.ibufBytes ≤ 0x10000) (b : Byte) :
    s.hostEvent (byteEvent s.params.base 0x10000 i b) = { s with ibuf := s.ibuf.write i b } := by
  rw [State.hostEvent_byteEvent hr rfl (by simp only [windowBytes]; omega), targetOf_ibuf_word (by omega),
    State.writeTarget, State.unlessBusy_idle hidle, writeLanes_byte hi]

theorem State.hostEvent_byteEvent_buf (hr : s.inReset = false) (hidle : s.busy = false) {i : Nat}
    (hi : i < s.params.bufBytes) (hsize : s.params.bufBytes ≤ 0x10000) (b : Byte) :
    s.hostEvent (byteEvent s.params.base 0x20000 i b) = { s with buf := s.buf.write i b } := by
  rw [State.hostEvent_byteEvent hr rfl (by simp only [windowBytes]; omega), targetOf_buf_word (by omega),
    State.writeTarget, State.unlessBusy_idle hidle, writeLanes_byte hi]

/-! ### A line's writes -/

/-- If each byte's write stores its byte in the memory that `withMemory` puts in the state, a line stores all its
bytes there. -/
theorem foldl_storeEvents {base window size : Nat} {withMemory : Memory → State}
    (hbyte : ∀ m i b, i < size →
      (withMemory m).hostEvent (byteEvent base window i b) = withMemory (m.write i b))
    (m : Memory) {i : Nat} {bs : List Byte} (h : i + bs.length ≤ size) :
    (storeEvents base window i bs).foldl State.hostEvent (withMemory m) = withMemory (m.writeAll i bs) := by
  induction bs generalizing m i with
  | nil => rfl
  | cons b bs ih =>
    rw [List.length_cons] at h
    rw [storeEvents, List.foldl_cons, hbyte m i b (by omega), ih _ (by omega)]
    rfl

theorem Memory.find_writeAll_inside (m : Memory) (i : Nat) {bs : List Byte} {j : Nat} (hj : j < bs.length) :
    (m.writeAll i bs).find (i + j) = some bs[j] := by
  rw [Memory.find_writeAll, dif_pos (by omega)]
  simp only [Nat.add_sub_cancel_left]

theorem Memory.find_writeAll_outside (m : Memory) {i a : Nat} {bs : List Byte}
    (ha : a < i ∨ i + bs.length ≤ a) : (m.writeAll i bs).find a = m.find a := by
  rw [Memory.find_writeAll, dif_neg (by omega)]

/-- Settles O50: a line writes all its bytes to the memory, which reads them back. -/
theorem storeLinesStoreTheirBytes : Obligations.StoreLinesStoreTheirBytes := by
  intro s i bs hlegal hr hidle
  obtain ⟨-, hibuf, hbuf, -⟩ := hlegal
  refine ⟨fun hi => ⟨{ s with ibuf := s.ibuf.writeAll i bs }, ?_, rfl, fun j hj => ?_, fun a ha => ?_⟩,
    fun hi => ⟨{ s with buf := s.buf.writeAll i bs }, ?_, rfl, fun j hj => ?_, fun a ha => ?_⟩⟩
  · exact foldl_storeEvents (withMemory := fun m => { s with ibuf := m })
      (fun m k b hk => State.hostEvent_byteEvent_ibuf (s := { s with ibuf := m }) hr hidle hk (hibuf.trans hbuf) b)
      s.ibuf hi
  · simp only [State.ibufByte, Memory.find_writeAll_inside _ _ hj, List.getElem?_eq_getElem hj]
  · simp only [State.ibufByte, Memory.find_writeAll_outside _ ha]
  · exact foldl_storeEvents (withMemory := fun m => { s with buf := m })
      (fun m k b hk => State.hostEvent_byteEvent_buf (s := { s with buf := m }) hr hidle hk hbuf b) s.buf hi
  · simp only [State.bufByte, Memory.find_writeAll_inside _ _ hj, List.getElem?_eq_getElem hj]
  · simp only [State.bufByte, Memory.find_writeAll_outside _ ha]

end Sys2Proof.Machine
end

section
/-! A command line of a host program on an idle block (O51): acceptance, completion, and the poll that ends the
wait. -/

namespace Sys2Proof.Machine

variable {s : State}

/-- A poll of an idle block is one read of STATUS, and the wait is over (30_encoding.md R61). -/
theorem State.poll_idle (hr : s.inReset = false) (hidle : s.busy = false) :
    s.poll = { s with reads := s.statusWord :: s.reads } := by
  have hread : s.hostRead Reg.status.offset = { s with reads := s.statusWord :: s.reads } := by
    rw [State.hostRead_current hr (by simp [hidle]), targetOf_offset]
    rfl
  have hbit : s.statusWord.getLsbD 0 = false := (s.getLsbD_statusWord 0).trans hidle
  simp only [State.poll, hread, hbit, Bool.false_eq_true, if_false]

/-- With no turns listed the host of a block with no command in flight moves (log 5). -/
theorem step_host_event (hturns : s.turns = []) (hf : s.inFlight = false) {e : HostEvent} {es : List HostEvent}
    (hhost : s.host = e :: es) : step s = .next (({ s with host := es } : State).hostEvent e) := by
  have ha : s.nextAgent = .host := by simp [State.nextAgent, hturns, hf]
  have htake : s.takeTurn = s := by rw [State.takeTurn, hturns, List.tail_nil, ← hturns]
  rcases step_cases s with ⟨ha', -⟩ | ⟨ha', -⟩ | ⟨-, hnil, -⟩ | ⟨-, e', es', hcons, hs⟩
  · simp [ha] at ha'
  · simp [ha] at ha'
  · simp [hhost] at hnil
  · obtain ⟨rfl, rfl⟩ := List.cons.inj (hhost.symm.trans hcons)
    rw [hs, htake]

/-- With no turns listed the command in flight runs (log 5). -/
theorem step_command (hturns : s.turns = []) (hf : s.inFlight = true) : step s = s.runCommand := by
  have ha : s.nextAgent = .sequencer := by simp [State.nextAgent, hturns, hf]
  have htake : s.takeTurn = s := by rw [State.takeTurn, hturns, List.tail_nil, ← hturns]
  rw [step_of_sequencer hf ha, htake]

/-- The host's write to CMD of an idle block is the acceptance (60_exceptions.md R87). -/
theorem step_issue (hr : s.inReset = false) (hidle : s.busy = false) (hturns : s.turns = []) {w : Word}
    {es : List HostEvent} (hhost : s.host = wrEvent s.params.base .cmd w :: es) :
    step s = .next (({ s with host := es } : State).accept w) := by
  rw [step_host_event hturns (by simp [State.inFlight, hidle]) hhost]
  have hwrite := State.hostEvent_write_reg (s := { s with host := es }) hr .cmd w
  exact congrArg _ (hwrite.trans (State.unlessBusy_idle (s := { s with host := es }) hidle _))

/-- A wait on an idle block takes one step. -/
theorem step_wait (hr : s.inReset = false) (hidle : s.busy = false) (hturns : s.turns = [])
    {es : List HostEvent} (hhost : s.host = .wait :: es) :
    step s = .next { s with host := es, reads := s.statusWord :: s.reads } := by
  rw [step_host_event hturns (by simp [State.inFlight, hidle]) hhost]
  exact congrArg _ (State.poll_idle (s := { s with host := es }) hr hidle)

/-- Settles O51: acceptance, completion, poll; the command leaves the coming events and turns alone. -/
theorem commandLineRunsItsCommand : Obligations.CommandLineRunsItsCommand := by
  intro s m es u hwf hr hidle hturns hhost hexec
  let accepted := ({ s with host := .wait :: es } : State).accept (encode m)
  have hlegal : decode accepted.cmd = .legal m := decode_encode hwf
  have hrun : accepted.runCommand = .next u := (State.runCommand_legal hlegal).trans hexec
  have hframe := (executed_of_exec hexec).commandFrame
  obtain ⟨hdone, -⟩ := State.runCommand_ends hrun
  have hissue : step s = .next accepted := step_issue hr hidle hturns hhost
  have hcommand : step accepted = .next u :=
    (step_command (s := accepted) hturns (accepted.inFlight_iff.2 ⟨rfl, hr⟩)).trans hrun
  have hwait : step u = .next { u with host := es, reads := u.statusWord :: u.reads } :=
    step_wait (hframe.inReset.trans hr) hdone (hframe.turns.trans hturns) hframe.host
  exact (run_succ_of_step (M := core) hissue 2).trans
    ((run_succ_of_step (M := core) hcommand 1).trans ((run_one core u).trans hwait))

end Sys2Proof.Machine
end

section
/-! The fixed-width reads of the bit cursor: RDB (O7, O8), RDBU (O9), RDF (O10), and the space check HSP (O11). -/

namespace Sys2Proof.Machine

variable {s : State} {i : Instr} {n : Nat}

/-! ### The command words -/

/-- OP stands at bits 31:28 and N at bits 15:0 (30_encoding.md R49). -/
theorem encode_toNat (h : i.wellFormed = true) : (encode i).toNat = i.opcode.toNat * 2 ^ 28 + i.count := by
  obtain ⟨-, -, hn⟩ := fields_encode h
  have hlt : i.count < 2 ^ 16 := hn ▸ countField_lt (encode i)
  have hhigh : (i.opcode ++ (0 : BitVec 12)).toNat = i.opcode.toNat * 2 ^ 12 := by
    rw [BitVec.toNat_append, Nat.shiftLeft_eq]
    exact Nat.or_zero _
  rw [encode, BitVec.toNat_append, BitVec.toNat_ofNat, Nat.mod_eq_of_lt hlt,
    ← Nat.shiftLeft_add_eq_or_of_lt hlt, hhigh, Nat.shiftLeft_eq]
  omega

/-- A command's word is its opcode's word plus its count. -/
theorem decode_add_count {w : Word} {op : BitVec 4} (h : i.wellFormed = true) (hop : i.opcode = op)
    (hw : w.toNat = op.toNat * 2 ^ 28) :
    decode (w + BitVec.ofNat 32 i.count) = .legal i := by
  have hword : encode i = w + BitVec.ofNat 32 i.count := by
    have hlt := (encode i).isLt
    apply BitVec.eq_of_toNat_eq
    rw [encode_toNat h, hop, ← hw] at hlt ⊢
    rw [BitVec.toNat_add, BitVec.toNat_ofNat, Nat.add_mod_mod, Nat.mod_eq_of_lt hlt]
  rw [← hword, decode_encode h]

/-! ### What a fixed-width read leaves in VAL and POS -/

/-- LEN <= BUF_BYTES <= 65536, so that no position inside the buffer wraps (10_state.md R24). -/
theorem State.Inv.bitLen_lt (h : s.Inv) : s.bitLen < 2 ^ 32 := by
  obtain ⟨⟨-, -, hbuf, -⟩, hlen, -⟩ := h
  rw [State.bitLen]
  omega

theorem State.readFixed_val_toNat (s : State) (hn : n ≤ 64) :
    (s.readFixed n).val.toNat = s.field s.pos.toNat n :=
  Nat.mod_eq_of_lt ((s.field_lt _ n).trans_le (Nat.pow_le_pow_right (by decide) hn))

theorem State.readFixed_pos_toNat (hb : s.bitLen < 2 ^ 32) (ha : s.avail n = true) :
    (s.readFixed n).pos.toNat = s.pos.toNat + n :=
  Nat.mod_eq_of_lt (((s.avail_iff n).1 ha).trans_lt hb)

/-- VAL_HI after a read of 64 bits is the first 32 of them (40_bit_cursor.md R62). -/
theorem State.readFixed_valHi (s : State) :
    ((s.readFixed 64).val.extractLsb' 32 32).toNat = s.field s.pos.toNat 32 := by
  have hsplit := s.field_add s.pos.toNat 32 32
  have hhigh := s.field_lt s.pos.toNat 32
  have hlow := s.field_lt (s.pos.toNat + 32) 32
  rw [BitVec.extractLsb'_toNat, s.readFixed_val_toNat le_rfl, Nat.shiftRight_eq_div_pow]
  simp only [Nat.reducePow, Nat.reduceAdd] at hsplit hhigh hlow ⊢
  omega

/-- A field that lies in one byte (20_memory.md R39). -/
theorem State.field_in_byte (s : State) (a : Nat) {j n r : Nat} (h : j + n + r = 8) :
    s.field (8 * a + j) n = (s.bufByte a).toNat / 2 ^ r % 2 ^ n := by
  have hsplit : (s.bufByte a).toNat = (s.field (8 * a) j * 2 ^ n + s.field (8 * a + j) n) * 2 ^ r +
      s.field (8 * a + j + n) r := by
    have hbyte := s.field_add (8 * a) (j + n) r
    rwa [h, s.field_byte, s.field_add, ← Nat.add_assoc] at hbyte
  rw [hsplit, Nat.mul_comm _ (2 ^ r), Nat.mul_add_div (Nat.two_pow_pos r),
    Nat.div_eq_of_lt (s.field_lt _ r), Nat.add_zero, Nat.mul_add_mod_of_lt (s.field_lt _ n)]

/-- Settles O7: the fixed-width read where the bits are there, and the error elsewhere. -/
theorem rdbReadsTheField : Obligations.RdbReadsTheField := by
  refine ⟨fun n hn => decode_add_count (i := .rdb n) (op := 1) (decide_eq_true hn) rfl (by decide),
    fun s hinv n hn => ⟨fun h => ?_, fun h => exec_rdb_of_short ((s.not_avail_iff n).2 h)⟩,
    fun s h0 _ hlen hpos => ?_⟩
  · have havail := (s.avail_iff n).2 h
    refine ⟨s.readFixed n, exec_rdb_of_avail havail, rfl, s.readFixed_val_toNat hn,
      State.readFixed_pos_toNat hinv.bitLen_lt havail, ?_⟩
    rintro rfl
    exact s.readFixed_valHi
  · have havail : s.avail 3 = true := (s.avail_iff 3).2 (by simp [hlen, hpos])
    have hfield : s.field s.pos.toNat 3 = 5 := by
      simpa [hpos, h0] using s.field_in_byte 0 (j := 0) (n := 3) (r := 5) rfl
    rw [exec_rdb_of_avail havail, State.readFixed, hfield, hpos]
    rfl

/-! ### The bits that VAL holds -/

/-- VAL re-encoded with `n` bits is the field's bit string (40_bit_cursor.md R63). -/
theorem State.natBits_readFixed_val (s : State) (hn : n ≤ 64) :
    natBits n (s.readFixed n).val.toNat = s.bits s.pos.toNat n := by
  have h := natBits_uint (s.bits s.pos.toNat n)
  rwa [State.bits_length, ← State.field, ← s.readFixed_val_toNat hn] at h

theorem natBits_getElem? (n v : Nat) {j : Nat} (hj : j < n) :
    (natBits n v)[j]? = some (v.testBit (n - 1 - j)) := by
  rw [natBits, List.getElem?_map, List.getElem?_range hj, Option.map_some]

/-- Settles O8: the re-encoding, of which each bit of VAL below `n` is one; VAL is below `2 ^ n`. -/
theorem rdbReencodesToTheSameBits : Obligations.RdbReencodesToTheSameBits := by
  intro s n hn h
  have hbits := s.natBits_readFixed_val hn
  refine ⟨s.readFixed n, exec_rdb_of_avail ((s.avail_iff n).2 h), fun j hj => ?_, fun j hj => ?_, hbits⟩
  · have hval : (s.readFixed n).val.toNat < 2 ^ n := s.readFixed_val_toNat hn ▸ s.field_lt _ n
    exact Nat.testBit_lt_two_pow (hval.trans_le (Nat.pow_le_pow_right (by decide) hj))
  · have hj' := congrArg (·[j]?) hbits
    rw [natBits_getElem? _ _ hj, State.bits_getElem?, if_pos hj] at hj'
    exact Option.some.inj hj'

/-! ### RDBU and its undefined case -/

theorem exec_rdbu_eq_rdb (h : s.avail n = true) : exec (.rdbu n) s = exec (.rdb n) s :=
  (exec_rdbu_of_avail h).trans (exec_rdb_of_avail h).symm

theorem State.uncheckedOverrun_of_fault (h : s.params.overrun = .fault) :
    s.uncheckedOverrun = .fault .uncheckedOverrun := by
  rw [State.uncheckedOverrun, h]

theorem State.uncheckedOverrun_of_anyValue (h : s.params.overrun = .anyValue) : s.uncheckedOverrun =
    .next (({ s with val := Config.freeVal s.draws, pos := Config.freePos s.draws } : State).complete
      (Config.freeCode s.draws)).drawn := by
  rw [State.uncheckedOverrun, h]

/-- Where the bits are not there and the fault treats the case, RDBU stops (40_bit_cursor.md R64). -/
theorem exec_rdbu_fault (h : 8 * s.len.toNat < s.pos.toNat + n) (hfault : s.params.overrun = .fault) :
    exec (.rdbu n) s = .fault .uncheckedOverrun := by
  rw [exec_rdbu_of_short ((s.not_avail_iff n).2 h), State.uncheckedOverrun_of_fault hfault]

/-- Settles O9: RDB's read where the bits are there, and elsewhere the treatment that the parameter names. -/
theorem rdbuReadsOrIsUndefined : Obligations.RdbuReadsOrIsUndefined := by
  refine ⟨fun n hn => decode_add_count (i := .rdbu n) (op := 2) (decide_eq_true hn) rfl (by decide),
    fun s hinv n hn => ⟨fun h => ?_, fun h => ⟨exec_rdbu_fault h, fun hany => ?_⟩⟩,
    fun s h0 hlen => ⟨fun hpos => ?_, fun hpos => exec_rdbu_fault (by simp [hlen, hpos])⟩⟩
  · have havail := (s.avail_iff n).2 h
    exact ⟨exec_rdbu_eq_rdb havail, s.readFixed n, exec_rdbu_of_avail havail, rfl, s.readFixed_val_toNat hn,
      State.readFixed_pos_toNat hinv.bitLen_lt havail⟩
  · rw [exec_rdbu_of_short ((s.not_avail_iff n).2 h), State.uncheckedOverrun_of_anyValue hany]
    exact ⟨_, rfl, rfl⟩
  · have havail : s.avail 4 = true := (s.avail_iff 4).2 (by simp [hlen, hpos])
    have hfield : s.field s.pos.toNat 4 = 0xC := by
      simpa [hpos, h0] using s.field_in_byte 0 (j := 2) (n := 4) (r := 2) rfl
    rw [exec_rdbu_of_avail havail, State.readFixed, hfield, hpos]
    rfl

/-! ### RDF -/

/-- The flag, by the value of the bit at POS (40_bit_cursor.md R65). -/
theorem exec_rdf_of_bit (h : s.pos.toNat < 8 * s.len.toNat) {b : Bool} (hb : s.bitAt s.pos.toNat = b) :
    exec .rdf s = .next (s.commitRead (if b then 1 else 0) (s.pos.toNat + 1)) := by
  rw [exec_rdf_of_avail ((s.avail_iff 1).2 h), hb]
  cases b <;> rfl

/-- Settles O10: RDB 1's read, whose value is the bit at POS. -/
theorem rdfReadsTheFlag : Obligations.RdfReadsTheFlag := by
  refine ⟨decode_encode (i := .rdf) rfl,
    fun s hinv => ⟨exec_rdf_eq_rdb s, fun h => ⟨_, exec_rdf_of_bit h rfl, rfl, ?_⟩,
      fun h => exec_rdf_of_short ((s.not_avail_iff 1).2 (Nat.lt_succ_of_le h))⟩,
    fun s h0 hlen => ?_⟩
  · exact Nat.mod_eq_of_lt (Nat.lt_of_le_of_lt h hinv.bitLen_lt)
  · have hbit {j : Nat} (hj : j < 8) (hpos : s.pos.toNat = j) :
        s.bitAt s.pos.toNat = (0x80 : Byte).getLsbD (7 - j) := by
      simpa [h0, hpos] using s.bitAt_byte 0 hj
    refine ⟨fun hpos => ?_, fun hpos => ?_⟩
    · rw [exec_rdf_of_bit (by simp [hlen, hpos]) (hbit (j := 0) (by decide) (by rw [hpos]; rfl)), hpos]
      rfl
    · rw [exec_rdf_of_bit (by simp [hlen, hpos]) (hbit (j := 1) (by decide) (by rw [hpos]; rfl)), hpos]
      rfl

/-! ### HSP -/

/-- HSP's answer (40_bit_cursor.md R66). -/
theorem exec_hsp_reports (s : State) (n : Nat) : exec (.hsp n) s =
    .next { s with val := if s.pos.toNat + n ≤ 8 * s.len.toNat then 1 else 0,
                   code := 0, busy := false, done := true } := by
  simp only [exec_hsp_eq, State.avail_iff]
  rfl

/-- Settles O11: the answer depends on POS and LEN alone. -/
theorem hspReportsSpace : Obligations.HspReportsSpace := by
  refine ⟨fun n hn => decode_add_count (i := .hsp n) (op := 6) (decide_eq_true hn) rfl (by decide),
    fun s n _ => exec_hsp_reports s n,
    fun s n m _ => ⟨_, _, exec_hsp_reports s n, exec_hsp_reports { s with buf := m } n, rfl⟩,
    fun s hlen hpos => ⟨?_, ?_⟩⟩ <;> rw [exec_hsp_reports]
  · rw [if_pos (by simp [hlen, hpos])]
  · rw [if_neg (by simp [hlen, hpos])]

end Sys2Proof.Machine
end

section
/-! Sequences of unchecked reads after a space check (O12). -/

namespace Sys2Proof.Machine

variable {s t : State}

theorem execAll_cons_of_next {i : Instr} (h : exec i s = .next t) (is : List Instr) :
    execAll (i :: is) s = execAll is t := by
  rw [execAll, h]

/-- Reads of all the counts `ns`, in order (40_bit_cursor.md R62). -/
def State.readAll (s : State) (ns : List Nat) : State := ns.foldl State.readFixed s

/-- Both kinds of read, where all their bits are there, are the fixed-width reads, and end where these do. -/
theorem execAll_reads (hb : s.bitLen < 2 ^ 32) {ns : List Nat} (h : s.avail ns.sum = true) :
    execAll (ns.map Instr.rdbu) s = .next (s.readAll ns) ∧ execAll (ns.map Instr.rdb) s = .next (s.readAll ns) ∧
      (s.readAll ns).pos.toNat = s.pos.toNat + ns.sum := by
  induction ns generalizing s with
  | nil => exact ⟨rfl, rfl, rfl⟩
  | cons n ns ih =>
    rw [s.avail_iff, List.sum_cons] at h
    have hn : s.avail n = true := (s.avail_iff n).2 (by omega)
    have hpos := State.readFixed_pos_toNat hb hn
    have hrest : (s.readFixed n).avail ns.sum = true := by
      rw [State.avail_iff, hpos]
      exact (Nat.add_assoc ..).trans_le h
    obtain ⟨hrdbu, hrdb, hend⟩ := ih (s := s.readFixed n) hb hrest
    refine ⟨(execAll_cons_of_next (exec_rdbu_of_avail hn) _).trans hrdbu,
      (execAll_cons_of_next (exec_rdb_of_avail hn) _).trans hrdb, hend.trans ?_⟩
    rw [hpos, List.sum_cons, Nat.add_assoc]

/-- HSP answers 1 only where the bits are there, and moves neither POS nor LEN (40_bit_cursor.md R66). -/
theorem avail_of_hsp {n : Nat} (h : exec (.hsp n) s = .next t) (hval : t.val = 1) :
    s.avail n = true ∧ t.pos = s.pos ∧ t.len = s.len := by
  rw [exec_hsp_eq] at h
  cases h
  refine ⟨?_, rfl, rfl⟩
  cases hn : s.avail n
  · simp [hn] at hval
  · rfl

/-- Settles O12: the space that HSP found is there for the whole sequence. -/
theorem hspGuardsUncheckedReads : Obligations.HspGuardsUncheckedReads := by
  intro s t n ns hinv _ _ hsum hhsp hval
  obtain ⟨havail, hpos, hlen⟩ := avail_of_hsp hhsp hval
  have hbits : t.bitLen < 2 ^ 32 := by
    rw [State.bitLen, hlen]
    exact hinv.bitLen_lt
  have hall : t.avail ns.sum = true := by
    rw [State.avail_iff] at havail ⊢
    rw [hpos, hlen]
    omega
  rw [← hpos]
  exact ⟨_, execAll_reads hbits hall⟩

end Sys2Proof.Machine
end

section
/-! The bits of BUF that the cursor commands read (O13): the `n` bits from POS on, and none for HSP. -/

namespace Sys2Proof.Machine

variable {s : State} {m : Memory} {n : Nat}

/-- `s` with other contents of BUF. -/
abbrev State.withBuf (s : State) (m : Memory) : State := { s with buf := m }

/-- The contents `m` of BUF agree with those of `s` on the `n` bits from POS on. -/
def State.AgreesOnField (s : State) (m : Memory) (n : Nat) : Prop :=
  ∀ j, j < n → s.bitAt (s.pos.toNat + j) = (s.withBuf m).bitAt (s.pos.toNat + j)

/-- The command `i` has one result on `s` whether BUF holds `m` or its own contents. -/
def State.SameResultWithBuf (s : State) (m : Memory) (i : Instr) : Prop :=
  ∃ t, exec i s = .next t ∧ exec i (s.withBuf m) = .next (t.withBuf m)

theorem State.AgreesOnField.readFixed (h : s.AgreesOnField m n) :
    (s.withBuf m).readFixed n = (s.readFixed n).withBuf m := by
  have hbits : s.bits s.pos.toNat n = (s.withBuf m).bits s.pos.toNat n := State.bits_congr h
  simp only [State.readFixed, State.field, ← hbits]
  rfl

theorem State.AgreesOnField.rdb (h : s.AgreesOnField m n) : s.SameResultWithBuf m (.rdb n) := by
  cases hn : s.avail n
  · exact ⟨_, exec_rdb_of_short hn, exec_rdb_of_short (s := s.withBuf m) hn⟩
  · refine ⟨_, exec_rdb_of_avail hn, ?_⟩
    rw [exec_rdb_of_avail (s := s.withBuf m) hn, h.readFixed]

theorem State.AgreesOnField.rdbu (h : s.AgreesOnField m n) (hn : s.avail n = true) :
    s.SameResultWithBuf m (.rdbu n) := by
  rw [State.SameResultWithBuf, exec_rdbu_eq_rdb hn, exec_rdbu_eq_rdb (s := s.withBuf m) hn]
  exact h.rdb

theorem State.AgreesOnField.rdf (h : s.AgreesOnField m 1) : s.SameResultWithBuf m .rdf := by
  rw [State.SameResultWithBuf, exec_rdf_eq_rdb, exec_rdf_eq_rdb]
  exact h.rdb

/-- HSP reads no bit of BUF (40_bit_cursor.md R68). -/
theorem State.sameResultWithBuf_hsp (s : State) (m : Memory) (k : Nat) : s.SameResultWithBuf m (.hsp k) :=
  ⟨_, exec_hsp_eq s k, exec_hsp_eq (s.withBuf m) k⟩

/-- Settles O13: command by command, the result is a function of the bits of the field. -/
theorem cursorReadsOnlyItsBits : Obligations.CursorReadsOnlyItsBits := by
  intro s m n _ h
  have hfield : s.AgreesOnField m n := h
  refine ⟨hfield.rdb, hfield.rdbu, ?_, fun _ => s.sameResultWithBuf_hsp m⟩
  rintro rfl
  exact hfield.rdf

end Sys2Proof.Machine
end

section
/-! When a step stops (O58): at an unchecked read past the end of the buffer that the fault treats, and nowhere
else. -/

namespace Sys2Proof.Machine

variable {s : State}

/-- The command in flight is an unchecked read past the end of the buffer, and the fault treats it (R64, log 2). -/
def State.Overruns (s : State) : Prop :=
  s.params.overrun = .fault ∧ ∃ n, decode s.cmd = .legal (.rdbu n) ∧ 8 * s.len.toNat < s.pos.toNat + n

/-- Only RDBU's undefined case may have no next state (40_bit_cursor.md R64). -/
theorem exec_next_or_overrun (i : Instr) (s : State) : (∃ t, exec i s = .next t) ∨
    (s.params.overrun = .fault ∧ ∃ n, i = .rdbu n ∧ s.avail n = false) := by
  rcases exec_cases i s with ⟨e, -, he⟩ | ⟨v, p, -, -, -, he⟩ | ⟨n, v, -, he⟩ | ⟨-, -, he⟩ |
    ⟨n, hi, hn, he⟩
  case inr.inr.inr.inr =>
    cases hover : s.params.overrun with
    | fault => exact .inr ⟨rfl, n, hi, hn⟩
    | anyValue => exact .inl ⟨_, he.trans (State.uncheckedOverrun_of_anyValue hover)⟩
  all_goals exact .inl ⟨_, he⟩

theorem State.runCommand_next_or_overruns (s : State) : (∃ t, s.runCommand = .next t) ∨ s.Overruns := by
  rcases s.runCommand_cases with ⟨i, hi, hr⟩ | ⟨why, -, hr⟩
  · rw [hr]
    refine (exec_next_or_overrun i s).imp id ?_
    rintro ⟨hfault, n, rfl, hn⟩
    exact ⟨hfault, n, hi, (s.not_avail_iff n).1 hn⟩
  · exact .inl ⟨_, hr⟩

theorem State.Overruns.runCommand (h : s.Overruns) : s.runCommand = .fault .uncheckedOverrun := by
  obtain ⟨hfault, n, hd, hn⟩ := h
  rw [State.runCommand_legal hd, exec_rdbu_fault hn hfault]

/-- A step is safe, or the sequencer stops at an overrun with the fault. -/
theorem step_safe_or_fault (s : State) :
    s.StepSafe ∨ (step s = .fault .uncheckedOverrun ∧ s.Completes ∧ s.Overruns) := by
  rcases step_cases s with ⟨ha, hf, hs⟩ | ⟨-, -, hs⟩ | ⟨-, -, hs⟩ | ⟨-, e, es, -, hs⟩
  · rcases s.takeTurn.runCommand_next_or_overruns with ⟨t, ht⟩ | hover
    · exact .inl ⟨t, hs.trans ht⟩
    · exact .inr ⟨hs.trans hover.runCommand, ⟨ha, hf⟩, hover⟩
  all_goals exact .inl ⟨_, hs⟩

theorem step_eq_fault_iff (s : State) (f : Fault) : step s = .fault f ↔ s.Completes ∧ s.Overruns := by
  constructor
  · intro h
    rcases step_safe_or_fault s with ⟨t, ht⟩ | ⟨-, hover⟩
    · cases h.symm.trans ht
    · exact hover
  · rintro ⟨⟨ha, hf⟩, hover⟩
    have htaken : s.takeTurn.Overruns := hover
    cases f with
    | uncheckedOverrun => exact (step_of_sequencer hf ha).trans htaken.runCommand

/-- A covered read does not overrun (70_reset_and_hazards.md R106). -/
theorem State.Covered.not_overruns (h : s.Covered) : ¬ s.Overruns := by
  rintro ⟨-, n, hd, hn⟩
  cases (h n hd).symm.trans ((s.not_avail_iff n).2 hn)

/-- Settles O58: a step that is not safe is the fault of an overrun. -/
theorem onlyAnUncoveredUncheckedReadStops : Obligations.OnlyAnUncoveredUncheckedReadStops := by
  refine ⟨fun s f => (step_eq_fault_iff s f).trans and_assoc, fun s r h => ?_, fun s hc => ?_⟩
  · rcases step_safe_or_fault s with ⟨t, ht⟩ | ⟨hs, -⟩
    · cases h.symm.trans ht
    · cases h.symm.trans hs
  · rcases step_safe_or_fault s with hsafe | ⟨-, -, hover⟩
    · exact hsafe
    · exact absurd hover hc.not_overruns

end Sys2Proof.Machine
end

section
/-! The scan for the 1 that ends an Exp-Golomb code's zeros: one bit a turn (O18), in closed form (O19), and what
`DecodeUE` answers where the bits from POS are known. -/

namespace Sys2Proof.Machine

variable {s : State}

/-! ### The scan, one bit a turn -/

theorem State.scanRun_of_end {h : ScanState} {r : UEResult} (hs : s.scanStep h = .inr r) (n : Nat) :
    s.scanRun (n + 1) h = some r := by
  rw [State.scanRun, hs]

theorem State.scanRun_of_goesOn {h h' : ScanState} (hs : s.scanStep h = .inl h') (n : Nat) :
    s.scanRun (n + 1) h = s.scanRun n h' := by
  rw [State.scanRun, hs]

/-- The turns that are left when `room` more zeros are allowed (41_exp_golomb.md R70). -/
theorem State.scanRun_eq_scanPrefix {p k room : Nat} (h : k + room = s.params.kMax) :
    s.scanRun (room + 1) ⟨p, k⟩ = some (s.scanPrefix p k room) := by
  rw [State.scanPrefix_eq]
  by_cases hl : s.bitLen < p + 1
  · rw [if_pos hl]
    exact State.scanRun_of_end (h := ⟨p, k⟩) (if_pos hl) room
  rw [if_neg hl]
  by_cases h1 : s.bitAt p = true
  · rw [if_pos h1]
    exact State.scanRun_of_end (h := ⟨p, k⟩) ((if_neg hl).trans (if_pos h1)) room
  rw [if_neg h1]
  have hzero : s.scanStep ⟨p, k⟩ =
      if s.params.kMax < k + 1 then .inr (.error .golombOverflow) else .inl ⟨p + 1, k + 1⟩ :=
    (if_neg hl).trans (if_neg h1)
  cases room with
  | zero => exact State.scanRun_of_end (hzero.trans (if_pos (by omega))) 0
  | succ room =>
    rw [State.scanRun_of_goesOn (hzero.trans (if_neg (by omega)))]
    exact State.scanRun_eq_scanPrefix (by omega)

/-- Settles O18, by the turns that are left. -/
theorem bitByBitScanEndsWithThePrefix : Obligations.BitByBitScanEndsWithThePrefix :=
  fun _ => State.scanRun_eq_scanPrefix (Nat.zero_add _)

/-! ### Parts of a bit string of the buffer -/

theorem State.bits_take (s : State) (p : Nat) {m n : Nat} (h : m ≤ n) : (s.bits p n).take m = s.bits p m := by
  obtain ⟨c, rfl⟩ := Nat.exists_eq_add_of_le h
  rw [State.bits_append]
  exact List.take_left' (s.bits_length p m)

theorem State.bits_drop (s : State) (p m n : Nat) : (s.bits p (m + n)).drop m = s.bits (p + m) n := by
  rw [State.bits_append]
  exact List.drop_left' (s.bits_length p m)

theorem State.bits_all_zero_iff (s : State) (p n : Nat) :
    (s.bits p n).all (fun b => !b) = true ↔ ∀ j, j < n → s.bitAt (p + j) = false := by
  induction n generalizing p with
  | zero => simp [State.bits]
  | succ n ih =>
    rw [State.bits, List.all_cons, Bool.and_eq_true, ih, Nat.forall_lt_succ_left]
    simp [Nat.add_assoc, Nat.add_comm 1]

/-! ### The answers of `DecodeUE`, by the bits from POS -/

variable {k : Nat}

/-- The bits from POS are `k` zeros and a 1, inside the buffer. -/
structure State.PrefixAtPos (s : State) (k : Nat) : Prop where
  zeros : ∀ j, j < k → s.bitAt (s.pos.toNat + j) = false
  one : s.bitAt (s.pos.toNat + k) = true
  inside : s.pos.toNat + k + 1 ≤ s.bitLen

theorem State.PrefixAtPos.scanPrefix (h : s.PrefixAtPos k) (hk : k ≤ s.params.kMax) :
    s.scanPrefix s.pos.toNat 0 s.params.kMax = .read k (s.pos.toNat + k + 1) := by
  obtain ⟨room, hroom⟩ := Nat.exists_eq_add_of_le hk
  have hl := h.inside
  rw [hroom, State.scanPrefix_skip h.zeros (by omega), State.scanPrefix_eq, if_neg (by omega), if_pos h.one,
    Nat.zero_add]

theorem State.PrefixAtPos.decodeUE (h : s.PrefixAtPos k) (hk : k ≤ s.params.kMax) :
    s.decodeUE = if s.bitLen < s.pos.toNat + 2 * k + 1 then .error .insufficientBits
      else .read (2 ^ k - 1 + s.field (s.pos.toNat + k + 1) k) (s.pos.toNat + 2 * k + 1) := by
  have hend : s.pos.toNat + k + 1 + k = s.pos.toNat + 2 * k + 1 := by omega
  simp only [State.decodeUE, h.scanPrefix hk, hend]

theorem State.decodeUE_of_truncatedPrefix (hl : s.bitLen < s.pos.toNat + s.params.kMax + 1)
    (h0 : ∀ q, s.pos.toNat ≤ q → q < s.bitLen → s.bitAt q = false) :
    s.decodeUE = .error .insufficientBits := by
  rcases s.decodeUE_cases with ⟨k, -, -, h1, hk, -⟩ | ⟨-, -, he⟩ | ⟨hl', -, -⟩
  · simp [h0 (s.pos.toNat + k) (by omega) (by omega)] at h1
  · exact he
  · omega

theorem State.decodeUE_of_overflow (hl : s.pos.toNat + s.params.kMax + 1 ≤ s.bitLen)
    (h0 : ∀ j, j ≤ s.params.kMax → s.bitAt (s.pos.toNat + j) = false) :
    s.decodeUE = .error .golombOverflow := by
  rcases s.decodeUE_cases with ⟨k, hk, -, h1, -, -⟩ | ⟨hl', -, -⟩ | ⟨-, -, he⟩
  · simp [h0 k hk] at h1
  · omega
  · exact he

/-! ### The closed form -/

/-- The bits of the buffer from POS on, `8 * LEN - POS` of them (41_exp_golomb.md R71). -/
abbrev State.restBits (s : State) : List Bool := s.bits s.pos.toNat (s.bitLen - s.pos.toNat)

theorem State.restBits_all_zero_iff (s : State) : s.restBits.all (fun b => !b) = true ↔
    ∀ q, s.pos.toNat ≤ q → q < s.bitLen → s.bitAt q = false := by
  rw [State.restBits, State.bits_all_zero_iff]
  constructor
  · intro h q hq hl
    obtain ⟨j, rfl⟩ := Nat.exists_eq_add_of_le hq
    exact h j (by omega)
  · exact fun h j hj => h _ (by omega) (by omega)

theorem State.restBits_take_all_zero_iff {n : Nat} (h : n ≤ s.bitLen - s.pos.toNat) :
    (s.restBits.take n).all (fun b => !b) = true ↔ ∀ j, j < n → s.bitAt (s.pos.toNat + j) = false := by
  rw [State.restBits, State.bits_take _ _ h, State.bits_all_zero_iff]

/-- The zeros that what is left begins with are those before the 1. -/
theorem State.PrefixAtPos.takeWhile_restBits (h : s.PrefixAtPos k) :
    (s.restBits.takeWhile (fun b => !b)).length = k := by
  have hl := h.inside
  obtain ⟨c, hc⟩ : ∃ c, s.bitLen - s.pos.toNat = k + (c + 1) := ⟨s.bitLen - s.pos.toNat - k - 1, by omega⟩
  have hzeros := List.all_eq_true.1 ((s.bits_all_zero_iff s.pos.toNat k).2 h.zeros)
  rw [State.restBits, hc, State.bits_append, State.bits, h.one, List.takeWhile_append_of_pos hzeros]
  simp

theorem State.PrefixAtPos.decodeUEClosed (h : s.PrefixAtPos k) (hk : k ≤ s.params.kMax) :
    s.decodeUEClosed = if s.bitLen < s.pos.toNat + 2 * k + 1 then .error .insufficientBits
      else .read (2 ^ k - 1 + s.field (s.pos.toNat + k + 1) k) (s.pos.toNat + 2 * k + 1) := by
  have hl := h.inside
  have hover : ¬ (s.params.kMax + 1 ≤ s.bitLen - s.pos.toNat ∧
      (s.restBits.take (s.params.kMax + 1)).all (fun b => !b) = true) := by
    rintro ⟨hle, h0⟩
    simpa [h.one] using (State.restBits_take_all_zero_iff hle).1 h0 k (by omega)
  have hzero : ¬ s.restBits.all (fun b => !b) = true := fun h0 => by
    simpa [h.one] using s.restBits_all_zero_iff.1 h0 (s.pos.toNat + k) (by omega) (by omega)
  have hshort : s.bitLen - s.pos.toNat < 2 * k + 1 ↔ s.bitLen < s.pos.toNat + 2 * k + 1 := by omega
  refine (if_neg hover).trans ((if_neg hzero).trans ?_)
  simp only [h.takeWhile_restBits, hshort]

theorem State.decodeUEClosed_of_truncatedPrefix (hl : s.bitLen < s.pos.toNat + s.params.kMax + 1)
    (h0 : ∀ q, s.pos.toNat ≤ q → q < s.bitLen → s.bitAt q = false) :
    s.decodeUEClosed = .error .insufficientBits :=
  (if_neg fun h => by omega).trans (if_pos (s.restBits_all_zero_iff.2 h0))

theorem State.decodeUEClosed_of_overflow (hl : s.pos.toNat + s.params.kMax + 1 ≤ s.bitLen)
    (h0 : ∀ j, j ≤ s.params.kMax → s.bitAt (s.pos.toNat + j) = false) :
    s.decodeUEClosed = .error .golombOverflow := by
  have hle : s.params.kMax + 1 ≤ s.bitLen - s.pos.toNat := by omega
  exact if_pos ⟨hle, (State.restBits_take_all_zero_iff hle).2 fun j hj => h0 j (Nat.le_of_lt_succ hj)⟩

/-- Settles O19: some zeros and a 1, zeros up to the end of the buffer, or too many zeros stand at POS, and both
forms answer alike. -/
theorem decodeUEClosedFormAgrees : Obligations.DecodeUEClosedFormAgrees := by
  intro s
  rcases s.decodeUE_cases with ⟨k, hk, h0, h1, hl, -⟩ | ⟨hl, h0, he⟩ | ⟨hl, h0, he⟩
  · have hprefix : s.PrefixAtPos k := ⟨h0, h1, hl⟩
    rw [hprefix.decodeUE hk, hprefix.decodeUEClosed hk]
  · rw [he, State.decodeUEClosed_of_truncatedPrefix hl h0]
  · rw [he, State.decodeUEClosed_of_overflow hl h0]

end Sys2Proof.Machine
end

section
/-! What RDUE and RDSE leave in VAL and POS (O20, O21), and the round trip through the encoders (O22). -/

namespace Sys2Proof.Machine

variable {s : State} {v p : Nat}

/-! ### The values fit their registers -/

/-- `|x| <= 2^K_MAX - 1` (41_exp_golomb.md R73). -/
theorem natAbs_signedOf_le {k : Nat} (h : v ≤ 2 ^ (k + 1) - 2) : (signedOf v).natAbs ≤ 2 ^ k - 1 := by
  rw [Nat.pow_succ] at h
  rw [signedOf]
  split <;> omega

theorem State.Inv.kMax_le (h : s.Inv) : s.params.kMax ≤ 63 := by
  obtain ⟨⟨-, -, -, hk, -⟩, -⟩ := h
  exact hk

/-- Every number `DecodeUE` gives fits VAL, and its position fits POS (41_exp_golomb.md R70). -/
theorem State.Inv.decodeUE_fits (h : s.Inv) (hd : s.decodeUE = .read v p) :
    (BitVec.ofNat 64 v).toNat = v ∧ (BitVec.ofNat 32 p).toNat = p := by
  obtain ⟨hv, -, hp⟩ := State.decodeUE_bounds hd
  have hpow : 2 ^ (s.params.kMax + 1) ≤ 2 ^ 64 :=
    Nat.pow_le_pow_right (by decide) (Nat.succ_le_succ h.kMax_le)
  exact ⟨Nat.mod_eq_of_lt (by omega), Nat.mod_eq_of_lt (hp.trans_lt h.bitLen_lt)⟩

/-- The signed value of such a number never overflows 64-bit two's complement (41_exp_golomb.md R73). -/
theorem State.Inv.signedOf_fits (h : s.Inv) (hd : s.decodeUE = .read v p) :
    (BitVec.ofInt 64 (signedOf v)).toInt = signedOf v ∧ (signedOf v).natAbs ≤ 2 ^ s.params.kMax - 1 := by
  obtain ⟨hv, -⟩ := State.decodeUE_bounds hd
  have habs := natAbs_signedOf_le hv
  have hpow : 2 ^ s.params.kMax ≤ 2 ^ 63 := Nat.pow_le_pow_right (by decide) h.kMax_le
  exact ⟨BitVec.toInt_ofInt_eq_self (by decide) (by omega) (by omega), habs⟩

/-! ### The code at POS -/

/-- Where the code of `v` stands at POS, inside the buffer, `DecodeUE` gives `v` (41_exp_golomb.md R74). -/
theorem State.decodeUE_of_bits_eq_encUE (hk : (v + 1).log2 ≤ s.params.kMax)
    (hl : s.pos.toNat + 2 * (v + 1).log2 + 1 ≤ s.bitLen)
    (hbits : s.bits s.pos.toNat (2 * (v + 1).log2 + 1) = encUE v) :
    s.decodeUE = .read v (s.pos.toNat + 2 * (v + 1).log2 + 1) := by
  obtain ⟨bs, hv⟩ := exists_eq_uint v
  have hlength := encUE_length v
  rw [hv, encUE_uint, ← hv] at hlength hbits
  generalize (v + 1).log2 = k at hk hl hbits hlength ⊢
  have hbs : bs.length = k := by
    simp only [List.length_append, List.length_replicate, List.length_cons] at hlength
    omega
  subst hbs
  have hcount : 2 * bs.length + 1 = bs.length + (bs.length + 1) := by omega
  rw [hcount, State.bits_append] at hbits
  obtain ⟨hzeros, hrest⟩ := List.append_inj hbits (by simp)
  obtain ⟨hone, hsuffix⟩ := List.cons.inj hrest
  have hprefix : s.PrefixAtPos bs.length :=
    { zeros := (s.bits_all_zero_iff _ _).1 (by simp [hzeros]), one := hone, inside := by omega }
  rw [hprefix.decodeUE hk, if_neg (by omega), State.field, hsuffix, ← hv]

/-! ### The example of R72 and R73 -/

/-- The bits of the example's two bytes. -/
theorem State.bits_example (h0 : s.bufByte 0 = 0xA6) (h1 : s.bufByte 1 = 0x40) :
    s.bits 0 16 = natBits 8 0xA6 ++ natBits 8 0x40 := by
  have hbyte0 := s.bits_byte 0
  have hbyte1 := s.bits_byte 1
  rw [h0] at hbyte0
  rw [h1] at hbyte1
  rw [s.bits_append 0 8 8]
  exact congrArg₂ (· ++ ·) hbyte0 hbyte1

theorem State.bits_example_part (h0 : s.bufByte 0 = 0xA6) (h1 : s.bufByte 1 = 0x40) {n : Nat}
    (h : p + n ≤ 16) : s.bits p n = ((natBits 8 0xA6 ++ natBits 8 0x40).drop p).take n := by
  obtain ⟨c, hc⟩ := Nat.exists_eq_add_of_le h
  rw [← State.bits_example h0 h1, hc, Nat.add_assoc, State.bits_drop, Nat.zero_add,
    State.bits_take _ _ (Nat.le_add_right n c)]

/-- Where the example's bits from POS on are the code of `v`, `DecodeUE` gives `v`. -/
theorem State.decodeUE_example_code (h0 : s.bufByte 0 = 0xA6) (h1 : s.bufByte 1 = 0x40) (hlen : s.len = 2)
    (hk : s.params.kMax = 31) (hpos : s.pos.toNat = p) (hfit : p + (2 * (v + 1).log2 + 1) ≤ 16)
    (hbits : ((natBits 8 0xA6 ++ natBits 8 0x40).drop p).take (2 * (v + 1).log2 + 1) = encUE v) :
    s.decodeUE = .read v (p + 2 * (v + 1).log2 + 1) := by
  have hend : s.bitLen = 16 := by rw [State.bitLen, hlen]; rfl
  subst hpos
  exact State.decodeUE_of_bits_eq_encUE (by omega) (by omega) ((State.bits_example_part h0 h1 hfit).trans hbits)

/-- The four codes of the example, and the zeros after them. -/
theorem State.decodeUE_example (h0 : s.bufByte 0 = 0xA6) (h1 : s.bufByte 1 = 0x40) (hlen : s.len = 2)
    (hk : s.params.kMax = 31) :
    (s.pos = 0 → s.decodeUE = .read 0 1) ∧ (s.pos = 1 → s.decodeUE = .read 1 4) ∧
    (s.pos = 4 → s.decodeUE = .read 2 7) ∧ (s.pos = 7 → s.decodeUE = .read 3 12) ∧
    (s.pos = 12 → s.decodeUE = .error .insufficientBits) := by
  have hcode {p v : Nat} := State.decodeUE_example_code (p := p) (v := v) h0 h1 hlen hk
  refine ⟨fun hpos => ?_, fun hpos => ?_, fun hpos => ?_, fun hpos => ?_, fun hpos => ?_⟩
  · exact hcode (p := 0) (v := 0) (by rw [hpos]; rfl) (by decide) (by decide)
  · exact hcode (p := 1) (v := 1) (by rw [hpos]; rfl) (by decide) (by decide)
  · exact hcode (p := 4) (v := 2) (by rw [hpos]; rfl) (by decide) (by decide)
  · exact hcode (p := 7) (v := 3) (by rw [hpos]; rfl) (by decide) (by decide)
  · have hend : s.bitLen = 16 := by rw [State.bitLen, hlen]; rfl
    have hpos' : s.pos.toNat = 12 := by rw [hpos]; rfl
    have hzeros : (s.bits 12 4).all (fun b => !b) = true := by
      rw [State.bits_example_part h0 h1 (by decide)]
      decide
    refine State.decodeUE_of_truncatedPrefix (by omega) fun q hq hlt => ?_
    obtain ⟨j, rfl⟩ := Nat.exists_eq_add_of_le hq
    rw [hpos']
    exact (s.bits_all_zero_iff 12 4).1 hzeros j (by omega)

/-! ### RDUE, RDSE and the encoders -/

/-- Settles O20: the four answers of `DecodeUE`, with the value and the position that fit their registers. -/
theorem rdueReadsTheCode : Obligations.RdueReadsTheCode := by
  refine ⟨decode_encode (i := .rdue) rfl, fun s hinv => ⟨fun k hk h0 h1 hl => ?_,
    fun hl h0 => exec_rdue_of_error (State.decodeUE_of_truncatedPrefix hl h0),
    fun hl h0 => exec_rdue_of_error (State.decodeUE_of_overflow hl h0)⟩, fun s h0 h1 hlen hk => ?_⟩
  · have hdecode := State.PrefixAtPos.decodeUE ⟨h0, h1, hl⟩ hk
    refine ⟨fun hend => ?_, fun hend => exec_rdue_of_error (hdecode.trans (if_pos hend))⟩
    have hread := hdecode.trans (if_neg (Nat.not_lt.2 hend))
    obtain ⟨hval, hpos⟩ := hinv.decodeUE_fits hread
    exact ⟨_, exec_rdue_of_read hread, rfl, hval, hpos⟩
  · obtain ⟨hzero, hone, htwo, hthree, hshort⟩ := State.decodeUE_example h0 h1 hlen hk
    exact ⟨fun hpos => exec_rdue_of_read (hzero hpos), fun hpos => exec_rdue_of_read (hone hpos),
      fun hpos => exec_rdue_of_read (htwo hpos), fun hpos => exec_rdue_of_read (hthree hpos),
      fun hpos => exec_rdue_of_error (hshort hpos)⟩

/-- Settles O21: the signed value fits VAL, and an error is raised by both commands alike. -/
theorem rdseReadsTheSignedCode : Obligations.RdseReadsTheSignedCode := by
  refine ⟨decode_encode (i := .rdse) rfl, fun s hinv => ⟨fun v p hd => ?_, fun e hd => ?_⟩,
    fun s h0 h1 hlen hk => ?_⟩
  · obtain ⟨hval, habs⟩ := hinv.signedOf_fits hd
    exact ⟨_, exec_rdse_of_read hd, rfl, fun hodd => hval.trans (signedOf_odd hodd),
      fun heven => hval.trans (signedOf_even heven), hval.symm ▸ habs, (hinv.decodeUE_fits hd).2⟩
  · exact ⟨State.decodeUE_error hd, exec_rdse_of_error hd,
      (exec_rdue_of_error hd).trans (exec_rdse_of_error hd).symm⟩
  · obtain ⟨hzero, hone, htwo, hthree, -⟩ := State.decodeUE_example h0 h1 hlen hk
    exact ⟨fun hpos => exec_rdse_of_read (hzero hpos), fun hpos => exec_rdse_of_read (hone hpos),
      fun hpos => exec_rdse_of_read (htwo hpos), fun hpos => exec_rdse_of_read (hthree hpos)⟩

/-- `EncSE(x)` is the code of the number whose signed value is `x` (41_exp_golomb.md R74). -/
theorem encSE_eq_encUE (x : Int) : encSE x = encUE (unsignedOf x) := by
  rw [encSE, unsignedOf]
  split <;> rfl

theorem signedOf_of_encSE_eq {x : Int} (h : encSE x = encUE v) : signedOf v = x := by
  rw [encSE_eq_encUE] at h
  have hv : v = unsignedOf x := eq_of_encUE_isPrefix (h ▸ List.prefix_rfl)
  rw [hv, signedOf_unsignedOf]

/-- Settles O22: `DecodeUE` gives back the number whose code stands at POS, which fixes its signed value. -/
theorem expGolombRoundTrips : Obligations.ExpGolombRoundTrips := by
  refine ⟨fun s v hinv hk hl hbits => ?_, fun v => (log2_succ_le_iff 31 v).2⟩
  have hd := State.decodeUE_of_bits_eq_encUE hk hl hbits
  obtain ⟨hval, hpos⟩ := hinv.decodeUE_fits hd
  refine ⟨⟨_, exec_rdue_of_read hd, rfl, hval, hpos⟩, fun x hx => ⟨_, exec_rdse_of_read hd, rfl, ?_, hpos⟩⟩
  exact (hinv.signedOf_fits hd).1.trans (signedOf_of_encSE_eq hx)

end Sys2Proof.Machine
end

section
/-! The bits of BUF that RDUE and RDSE read (O23): at most `2 * K_MAX + 1` from POS on. -/

namespace Sys2Proof.Machine

variable {s : State} {m : Memory}

theorem State.AgreesOnField.decodeUE (h : s.AgreesOnField m (2 * s.params.kMax + 1)) :
    (s.withBuf m).decodeUE = s.decodeUE :=
  (State.decodeUE_congr (s := s) (t := s.withBuf m) rfl rfl rfl fun j hj _ => h j hj).symm

theorem State.AgreesOnField.rdue (h : s.AgreesOnField m (2 * s.params.kMax + 1)) :
    s.SameResultWithBuf m .rdue := by
  cases hd : s.decodeUE with
  | error e => exact ⟨_, exec_rdue_of_error hd, exec_rdue_of_error (h.decodeUE.trans hd)⟩
  | read v p => exact ⟨_, exec_rdue_of_read hd, exec_rdue_of_read (h.decodeUE.trans hd)⟩

theorem State.AgreesOnField.rdse (h : s.AgreesOnField m (2 * s.params.kMax + 1)) :
    s.SameResultWithBuf m .rdse := by
  cases hd : s.decodeUE with
  | error e => exact ⟨_, exec_rdse_of_error hd, exec_rdse_of_error (h.decodeUE.trans hd)⟩
  | read v p => exact ⟨_, exec_rdse_of_read hd, exec_rdse_of_read (h.decodeUE.trans hd)⟩

/-- Settles O23: both commands' results are functions of what `DecodeUE` gives, and K_MAX is at most 63. -/
theorem expGolombReadsBoundedBits : Obligations.ExpGolombReadsBoundedBits := by
  intro s m h
  have hfield : s.AgreesOnField m (2 * s.params.kMax + 1) := h
  refine ⟨fun hinv => ?_, hfield.rdue, hfield.rdse⟩
  have hk := hinv.kMax_le
  omega

end Sys2Proof.Machine
end

section
/-! The emulation-prevention filter and EPF (O24 to O29): what one more byte adds to the output, from which
the indexed form, the streaming form and the length follow, and the state after EPF. -/

namespace Sys2Proof.Machine

variable {x : List Byte} {s : State}

/-! ### The removed indices -/

theorem removedAt_iff {i : Nat} : removedAt x i = true ↔
    2 ≤ i ∧ x[i - 2]? = some 0x00 ∧ x[i - 1]? = some 0x00 ∧ x[i]? = some 0x03 := by
  simp [removedAt, and_assoc]

/-- What follows an index never matters to it (42_emulation_prevention.md R76). -/
theorem removedAt_append_of_lt {i : Nat} (h : i < x.length) (y : List Byte) :
    removedAt (x ++ y) i = removedAt x i := by
  simp only [removedAt]
  rw [List.getElem?_append_left h, List.getElem?_append_left (by omega : i - 1 < x.length),
    List.getElem?_append_left (by omega : i - 2 < x.length)]

/-- A removed byte is 03 and the byte before a removed one is 00 (R77). -/
theorem removedAt_ne_match_zeros {i j : Nat} (hi : removedAt x i = true) (hj : removedAt x j = true) :
    i ≠ j - 1 ∧ i ≠ j - 2 := by
  obtain ⟨-, -, -, hthree⟩ := removedAt_iff.1 hi
  obtain ⟨-, hzero2, hzero1, -⟩ := removedAt_iff.1 hj
  constructor
  · rintro rfl
    exact absurd (hthree.symm.trans hzero1) (by decide)
  · rintro rfl
    exact absurd (hthree.symm.trans hzero2) (by decide)

/-! ### The output of a longer input -/

/-- The output of a longer input begins with the output of the shorter one (R76). -/
theorem epfFilter_append (x y : List Byte) : epfFilter (x ++ y) =
    epfFilter x ++ ((y.zipIdx x.length).filter (fun c => !removedAt (x ++ y) c.2)).map Prod.fst := by
  have hkeep : x.zipIdx.filter (fun c => !removedAt (x ++ y) c.2) =
      x.zipIdx.filter (fun c => !removedAt x c.2) := by
    refine List.filter_congr fun c hc => ?_
    rw [removedAt_append_of_lt (List.snd_lt_of_mem_zipIdx hc)]
  rw [epfFilter, List.zipIdx_append, List.filter_append, List.map_append, hkeep, Nat.zero_add, epfFilter]

/-- One more byte is added to the output unless its index is removed. -/
theorem epfFilter_append_singleton (x : List Byte) (b : Byte) : epfFilter (x ++ [b]) =
    epfFilter x ++ if removedAt (x ++ [b]) x.length then [] else [b] := by
  rw [epfFilter_append]
  cases h : removedAt (x ++ [b]) x.length <;> simp [h]

/-- The byte of `x` at `i`, unless that index is removed. -/
def keptAt (x : List Byte) (i : Nat) : Option Byte := if removedAt x i then none else x[i]?

theorem keptAt_append_of_lt {i : Nat} (h : i < x.length) (y : List Byte) :
    keptAt (x ++ y) i = keptAt x i := by
  rw [keptAt, keptAt, removedAt_append_of_lt h, List.getElem?_append_left h]

theorem epfFilter_eq_filterMap_keptAt (x : List Byte) :
    epfFilter x = (List.range x.length).filterMap (keptAt x) := by
  induction x using List.reverseRecOn with
  | nil => rfl
  | append_singleton x b ih =>
    have hkeep : (List.range x.length).filterMap (keptAt (x ++ [b])) =
        (List.range x.length).filterMap (keptAt x) :=
      List.filterMap_congr fun i hi => keptAt_append_of_lt (List.mem_range.1 hi) [b]
    rw [epfFilter_append_singleton, List.length_append, List.length_singleton, List.range_succ,
      List.filterMap_append, hkeep, ih]
    cases h : removedAt (x ++ [b]) x.length <;> simp [keptAt, h]

/-- Every index is kept or removed. -/
theorem epfFilter_length_add_removed (x : List Byte) :
    (epfFilter x).length + ((List.range x.length).filter (fun i => removedAt x i)).length = x.length := by
  have hremoved : ((List.range x.length).filter (fun i => removedAt x i)).length =
      (x.zipIdx.filter (fun c => removedAt x c.2)).length := by
    rw [List.range_eq_range', ← List.zipIdx_map_snd 0 x, List.filter_map, List.length_map]
    rfl
  rw [hremoved, epfFilter, List.length_map, Nat.add_comm]
  exact (List.length_eq_length_filter_add _).symm.trans List.length_zipIdx

/-- Where nothing is removed the input is the output. -/
theorem epfFilter_of_noMatch (h : ∀ i, removedAt x i = false) : epfFilter x = x := by
  rw [epfFilter, List.filter_eq_self.2 fun c _ => by rw [h, Bool.not_false], List.zipIdx_map_fst]

/-- Settles O24: each index is kept or removed by itself and those before it. -/
theorem filterDeletesExactlyTheMarkers : Obligations.FilterDeletesExactlyTheMarkers := by
  refine ⟨fun x => ?_, fun x => ?_, fun x y => ?_⟩
  · refine (epfFilter_eq_filterMap_keptAt x).trans (List.filterMap_congr fun i _ => ?_)
    simp only [keptAt, removedAt_iff]
  · have := epfFilter_length_add_removed x
    omega
  · rw [epfFilter_append]
    exact List.prefix_append _ _

/-- Settles O25: a removed byte is 03 and the zeros of a match are 00. -/
theorem removedBytesNeverOverlap : Obligations.RemovedBytesNeverOverlap :=
  ⟨fun _ _ _ => removedAt_ne_match_zeros, rfl, rfl, rfl, rfl⟩

/-- Settles O29: the second 03 stands after the zeros once the first is removed. -/
theorem filteringTwiceCorrupts : Obligations.FilteringTwiceCorrupts := ⟨rfl, rfl⟩

/-! ### The streaming form -/

/-- The number of 00 bytes that end `x`: those just before the byte that follows it (R78). -/
def zeroRun (x : List Byte) : Nat := (x.reverse.takeWhile (fun b => b == 0x00)).length

theorem zeroRun_append_singleton (x : List Byte) (b : Byte) :
    zeroRun (x ++ [b]) = if b = 0x00 then zeroRun x + 1 else 0 := by
  simp only [zeroRun, List.reverse_concat, List.takeWhile_cons, beq_iff_eq]
  split <;> rfl

theorem two_le_zeroRun_iff : 2 ≤ zeroRun x ↔
    2 ≤ x.length ∧ x[x.length - 2]? = some 0x00 ∧ x[x.length - 1]? = some 0x00 := by
  rcases List.eq_nil_or_concat' x with rfl | ⟨x, b, rfl⟩
  · simp [zeroRun]
  rcases List.eq_nil_or_concat' x with rfl | ⟨x, a, rfl⟩
  · rw [zeroRun_append_singleton]
    split <;> simp [zeroRun]
  · have hlast : (x ++ [a] ++ [b])[(x ++ [a] ++ [b]).length - 1]? = some b := by simp
    have hprev : (x ++ [a] ++ [b])[(x ++ [a] ++ [b]).length - 2]? = some a := by simp
    rw [hlast, hprev, zeroRun_append_singleton, zeroRun_append_singleton]
    split_ifs <;> simp_all

/-- The next byte's index is removed when the byte is 03 and at least two zeros stand before it. -/
theorem removedAt_append_singleton_iff {b : Byte} :
    removedAt (x ++ [b]) x.length = true ↔ 2 ≤ zeroRun x ∧ b = 0x03 := by
  rw [removedAt_iff, two_le_zeroRun_iff, List.getElem?_concat_length, Option.some.injEq, and_assoc, and_assoc]
  refine and_congr_right fun hlen => ?_
  rw [List.getElem?_append_left (by omega : x.length - 2 < x.length),
    List.getElem?_append_left (by omega : x.length - 1 < x.length)]

/-- The hidden state after the bytes of `x`: Z is the zero run before the next byte, capped at 2, and the
output so far is the filter's (R78). -/
theorem filterRun_eq (x : List Byte) : filterRun x = ⟨min 2 (zeroRun x), epfFilter x⟩ := by
  induction x using List.reverseRecOn with
  | nil => rfl
  | append_singleton x b ih =>
    have hstep : filterRun (x ++ [b]) = filterStep (filterRun x) b := List.foldl_concat ..
    rw [hstep, ih, filterStep, zeroRun_append_singleton, epfFilter_append_singleton]
    by_cases hmatch : 2 ≤ zeroRun x ∧ b = 0x03
    · rw [if_pos (removedAt_append_singleton_iff.2 hmatch)]
      obtain ⟨hrun, rfl⟩ := hmatch
      rw [if_pos ⟨min_eq_left hrun, rfl⟩, List.append_nil]
      rfl
    · have hcap : min (min 2 (zeroRun x) + 1) 2 = min 2 (zeroRun x + 1) := by omega
      rw [if_neg (by simpa using hmatch), if_neg (mt removedAt_append_singleton_iff.1 hmatch), hcap,
        apply_ite (min 2), Nat.min_zero]

/-- Settles O26: the hidden state after each byte. -/
theorem streamingFilterAgrees : Obligations.StreamingFilterAgrees :=
  ⟨fun x => congrArg FilterState.out (filterRun_eq x),
    fun x i _ => congrArg FilterState.z (filterRun_eq (x.take i))⟩

/-! ### EPF -/

theorem State.source_getElem? {i : Nat} (h : i < s.arg1.toNat) :
    s.source[i]? = some (s.ibufByte (s.arg0.toNat + i)) := by
  simp [State.source, h]

/-- LEN after EPF: the output's length fits 32 bits (R81). -/
theorem State.Inv.filtered_len_toNat (h : s.Inv) (hs : s.sourceInRange = true) :
    s.filtered.len.toNat = (epfFilter s.source).length := by
  have hlen := h.epfFilter_source_length_le hs
  obtain ⟨⟨-, -, hbuf, -⟩, -⟩ := h
  exact Nat.mod_eq_of_lt (by omega)

/-- BUF after EPF (R79). -/
theorem State.filtered_bufByte (s : State) (j : Nat) : s.filtered.bufByte j =
    if h : j < (epfFilter s.source).length then (epfFilter s.source)[j] else s.bufByte j :=
  s.bufByte_writeAll (epfFilter s.source) j

/-- The bytes of BUF below LEN after EPF are the output. -/
theorem State.filtered_bufBytes (s : State) :
    (List.range (epfFilter s.source).length).map s.filtered.bufByte = epfFilter s.source := by
  refine List.ext_getElem (by simp) fun j _ hj => ?_
  rw [List.getElem_map, List.getElem_range, s.filtered_bufByte, dif_pos hj]

/-- An empty range stores nothing (R80). -/
theorem State.filtered_of_empty (h : s.arg1 = 0) :
    s.filtered = { s with len := 0, pos := 0, code := 0, busy := false, done := true } := by
  have hsource : s.source = [] := by simp [State.source, h]
  rw [State.filtered, hsource]
  rfl

/-- Settles O27: the state after EPF field by field where the range check passes, and the example, whose
output is computed. -/
theorem epfFiltersIntoBuf : Obligations.EpfFiltersIntoBuf := by
  refine ⟨decode_encode (i := .epf) rfl, fun s => ⟨s.source_length, fun _ => State.source_getElem?⟩,
    fun _ => epfFilter_of_noMatch, fun s hinv => ⟨fun hs => ?_, fun hs => ?_, fun hempty hend => ?_⟩,
    fun s hinv hsize h0 h1 hbytes => ?_⟩
  · have hrange := s.sourceInRange_iff.2 hs
    refine ⟨s.filtered, exec_epf_of_inRange hrange, rfl, hinv.filtered_len_toNat hrange, fun j hj => ?_,
      fun j hj => (s.filtered_bufByte j).trans (dif_neg (by omega)), fun _ => rfl⟩
    rw [s.filtered_bufByte, dif_pos hj, List.getElem?_eq_getElem hj]
  · exact exec_epf_of_outOfRange (decide_eq_false (by omega))
  · have hrange := s.sourceInRange_iff.2 (by simp [hempty, hend])
    rw [exec_epf_of_inRange hrange, State.filtered_of_empty hempty]
  · have hrange := s.sourceInRange_iff.2 (by simpa [h0, h1] using hsize)
    have hsource : s.source = [0x01, 0x60, 0x00, 0x00, 0x03, 0x00, 0x90] := by
      simpa [State.source, h0, h1] using hbytes
    have hout : epfFilter s.source = [0x01, 0x60, 0x00, 0x00, 0x00, 0x90] := by rw [hsource]; rfl
    have hlen : s.filtered.len = 6 := congrArg (fun y : List Byte => BitVec.ofNat 32 y.length) hout
    have hbuf := s.filtered_bufBytes
    rw [hout] at hbuf
    exact ⟨s.filtered, exec_epf_of_inRange hrange, hlen, rfl, hbuf⟩

/-- Settles O28: the streaming form's output is the filter's, and the range check bounds the source. -/
theorem epfOutputFits : Obligations.EpfOutputFits := by
  refine ⟨epfFilter_length_le, fun x i _ => ?_, fun s hinv hs => ?_⟩
  · rw [filterRun_eq]
    exact (epfFilter_length_le _).trans (List.length_take_le ..)
  · have hrange := s.sourceInRange_iff.2 hs
    have hlen := hinv.filtered_len_toNat hrange
    have ⟨⟨_, hbuf, _⟩, _⟩ := hinv
    exact ⟨s.source_length ▸ epfFilter_length_le s.source, by omega, hbuf, s.filtered,
      exec_epf_of_inRange hrange, hlen, hlen ▸ hinv.epfFilter_source_length_le hrange⟩

end Sys2Proof.Machine
end

section
/-! The idle block (O59), the acceptance of a command (O31), and the IRQ output (O36). -/

namespace Sys2Proof.Machine

variable {s t : State}

/-! ### The idle block -/

theorem State.inFlight_of_idle (h : s.busy = false) : s.inFlight = false := by simp [State.inFlight, h]

theorem State.sequencerMove_waits (h : s.inFlight = false) : s.sequencerMove = .next s := if_neg (by simp [h])

theorem State.takeTurn_of_none (h : s.turns = []) : s.takeTurn = s := by
  rw [State.takeTurn, h, List.tail_nil, ← h]

/-- Nothing in flight and nothing to come from the host: whoever's turn it is, the turn alone is used up. -/
theorem step_idle (hf : s.inFlight = false) (hhost : s.host = []) : step s = .next s.takeTurn := by
  rcases step_cases s with ⟨-, hf', -⟩ | ⟨-, -, hs⟩ | ⟨-, -, hs⟩ | ⟨-, e, es, hhost', -⟩
  · simp [hf] at hf'
  · exact hs
  · exact hs
  · simp [hhost] at hhost'

/-- Settles O59: BUSY = 0 is nothing in flight, so neither agent has anything to do. -/
theorem idleBlockKeepsItsState : Obligations.IdleBlockKeepsItsState := by
  refine ⟨fun s hidle => State.sequencerMove_waits (State.inFlight_of_idle hidle),
    fun s hidle => step_idle (State.inFlight_of_idle hidle), fun s hidle hhost hturns => ?_⟩
  rw [step_idle (State.inFlight_of_idle hidle) hhost, State.takeTurn_of_none hturns]

/-! ### Acceptance -/

/-- Settles O31: the write to CMD, then what a host event leaves a command in flight (R44). -/
theorem acceptanceLatchesTheInputs : Obligations.AcceptanceLatchesTheInputs := by
  refine ⟨fun s w hr hidle _ => ?_, fun s e hf he => ?_⟩
  · exact (State.hostEvent_write_reg hr .cmd w).trans (State.unlessBusy_idle hidle (s.accept w))
  · have h := State.sameCommand_hostEvent hf he
    exact ⟨h.inFlight.trans hf, h.cmd, h.pos, h.len, h.val, h.arg0, h.arg1, h.code, h.params, h.ibufByte,
      h.bufByte⟩

/-! ### The IRQ output -/

/-- An illegal word's completion has the frame of a command as well. -/
theorem State.commandFrame_of_runCommand (h : s.runCommand = .next t) : State.CommandFrame s t := by
  rcases s.runCommand_cases with ⟨i, -, hr⟩ | ⟨why, -, hr⟩ <;> rw [hr] at h
  · exact (executed_of_exec h).commandFrame
  · cases h
    constructor <;> rfl

theorem State.irq_of_done_eq_false (h : s.done = false) : s.irq = false := by simp [State.irq, h]

/-- A write sets DONE to its old value or clears it (10_state.md R21). -/
theorem State.Written.done_imp {d : Word} {be : BitVec 4} {tg : Target} (h : State.Written s d be tg t)
    (hd : t.done = true) : s.done = true := by
  cases h with
  | status => exact (Bool.and_eq_true_iff.1 hd).1
  | accepted => cases hd
  | _ => exact hd

theorem State.Happened.done_imp {e : HostEvent} (h : State.Happened s e t) (hd : t.done = true) :
    s.done = true := by
  cases h with
  | write _ _ _ _ _ _ hw => exact hw.done_imp hd
  | assertReset => cases hd
  | _ => exact hd

/-- Settles O36: a completion sets DONE and keeps IE, and no host event sets DONE. -/
theorem irqIsEnableAndDone : Obligations.IrqIsEnableAndDone := by
  refine ⟨fun s => rfl, fun s t h => ?_, fun s e => (s.happened_hostEvent e).done_imp, fun s h => ?_,
    fun s d hd => State.irq_of_done_eq_false ?_, fun s w => State.irq_of_done_eq_false rfl,
    fun s => State.irq_of_done_eq_false rfl⟩
  · obtain ⟨-, hdone, -⟩ := State.runCommand_ends h
    rw [State.irq, hdone, (State.commandFrame_of_runCommand h).ie, Bool.and_true]
  · by_contra hf
    exact h (State.sequencerMove_waits (Bool.eq_false_of_not_eq_true hf))
  · show (s.done && !d.getLsbD 1) = false
    rw [hd, Bool.not_true, Bool.and_false]

end Sys2Proof.Machine
end

section
/-! The result codes: the illegal words (O32), the code of each command with its cause (O30), and that an error
changes STATUS alone (O33). -/

namespace Sys2Proof.Machine

variable {s t : State} {w : Word} {i : Instr} {n : Nat}

/-! ### Illegal words -/

/-- The opcode map holds 1 to 7 (30_encoding.md R51). -/
theorem opField_range_of_legal (h : decode w = .legal i) :
    1 ≤ (opField w).toNat ∧ (opField w).toNat ≤ 7 := by
  obtain ⟨-, hop, -, -⟩ := fields_of_decode h
  rw [hop]
  cases i <;> simp [Instr.opcode]

/-- RDB and RDBU (30_encoding.md R50). -/
theorem countField_le_of_fixedRead (h : decode w = .legal i) (hop : opField w = 0x1 ∨ opField w = 0x2) :
    countField w ≤ 64 := by
  obtain ⟨hwf, hi, -, hn⟩ := fields_of_decode h
  rw [hi] at hop
  rw [hn]
  cases i with
  | rdb | rdbu => exact (wellFormed_iff_count_le _).1 hwf
  | _ => simp [Instr.opcode] at hop

/-- RDF, RDUE, RDSE and EPF, which have no operand (30_encoding.md R50). -/
theorem countField_eq_zero_of_noOperand (h : decode w = .legal i)
    (hop : opField w = 0x3 ∨ opField w = 0x4 ∨ opField w = 0x5 ∨ opField w = 0x7) : countField w = 0 := by
  obtain ⟨-, hi, -, hn⟩ := fields_of_decode h
  rw [hi] at hop
  rw [hn]
  cases i with
  | rdf | rdue | rdse | epf => rfl
  | _ => simp [Instr.opcode] at hop

theorem State.runCommand_of_notLegal (h : ∀ i, decode s.cmd ≠ .legal i) :
    s.runCommand = .next (s.complete 3) := by
  rcases s.runCommand_cases with ⟨i, hi, -⟩ | ⟨why, -, hr⟩
  · exact absurd hi (h i)
  · exact hr

/-- Settles O32: each kind of word contradicts what the fields of a legal word are. -/
theorem illegalWordsCompleteAsIllegal : Obligations.IllegalWordsCompleteAsIllegal := by
  refine ⟨fun s hkind => State.runCommand_of_notLegal fun i hi => ?_,
    fun s hcmd _ => State.runCommand_of_notLegal fun i hi => ?_⟩
  · obtain ⟨hlow, hhigh⟩ := opField_range_of_legal hi
    rcases hkind with h0 | h8 | hrsv | ⟨hfixed, h64⟩ | ⟨hnone, hne⟩
    · simp [opField, h0] at hlow
    · exact absurd (h8.trans hhigh) (by decide)
    · obtain ⟨-, -, hrsv', -⟩ := fields_of_decode hi
      exact hrsv hrsv'
    · exact absurd (countField_le_of_fixedRead hi hfixed) (Nat.not_le.2 h64)
    · exact hne (BitVec.eq_of_toNat_eq (countField_eq_zero_of_noOperand hi hnone))
  · rw [hcmd] at hi
    exact absurd (countField_le_of_fixedRead hi (.inl rfl)) (by decide)

/-! ### The code of each command -/

theorem State.code_of_rdb (h : exec (.rdb n) s = .next t) :
    t.code = if 8 * s.len.toNat < s.pos.toNat + n then 1 else 0 := by
  cases ha : s.avail n
  · cases (exec_rdb_of_short ha).symm.trans h
    exact (if_pos ((s.not_avail_iff n).1 ha)).symm
  · cases (exec_rdb_of_avail ha).symm.trans h
    exact (if_neg (Nat.not_lt.2 ((s.avail_iff n).1 ha))).symm

theorem State.code_of_epf (h : exec .epf s = .next t) :
    t.code = if s.params.ibufBytes < s.arg0.toNat + s.arg1.toNat then 4 else 0 := by
  cases hs : s.sourceInRange
  · cases (exec_epf_of_outOfRange hs).symm.trans h
    exact (if_pos (Nat.not_le.1 (of_decide_eq_false hs))).symm
  · cases (exec_epf_of_inRange hs).symm.trans h
    exact (if_neg (Nat.not_lt.2 (s.sourceInRange_iff.1 hs))).symm

/-- The code with which RDUE and RDSE complete when `DecodeUE` answers this. -/
def UEResult.code : UEResult → BitVec 4
  | .read _ _ => 0
  | .error e => e.toBits

theorem State.code_of_golomb (hi : i = .rdue ∨ i = .rdse) (h : exec i s = .next t) :
    t.code = s.decodeUE.code := by
  cases hd : s.decodeUE with
  | read v p =>
    rcases hi with rfl | rfl
    · cases (exec_rdue_of_read hd).symm.trans h
      rfl
    · cases (exec_rdse_of_read hd).symm.trans h
      rfl
  | error e =>
    rcases hi with rfl | rfl
    · cases (exec_rdue_of_error hd).symm.trans h
      rfl
    · cases (exec_rdse_of_error hd).symm.trans h
      rfl

theorem State.decodeUE_eq_overflow_iff (s : State) : s.decodeUE = .error .golombOverflow ↔
    s.pos.toNat + s.params.kMax + 1 ≤ 8 * s.len.toNat ∧
      ∀ j, j ≤ s.params.kMax → s.bitAt (s.pos.toNat + j) = false := by
  refine ⟨fun h => ?_, fun ⟨hl, h0⟩ => State.decodeUE_of_overflow hl h0⟩
  rcases s.decodeUE_cases with ⟨k, -, -, -, -, ⟨-, he⟩ | ⟨-, he⟩⟩ | ⟨-, -, he⟩ | ⟨hl, h0, -⟩
  · cases h.symm.trans he
  · cases h.symm.trans he
  · cases h.symm.trans he
  · exact ⟨hl, h0⟩

/-- `DecodeUE`'s codes are OK, INSUFFICIENT_BITS and GOLOMB_OVERFLOW, and each error is its own code (R70). -/
theorem State.decodeUE_code (s : State) :
    (s.decodeUE.code = 0 ∨ s.decodeUE.code = 1 ∨ s.decodeUE.code = 2) ∧
    (s.decodeUE.code = 1 ↔ s.decodeUE = .error .insufficientBits) ∧
    (s.decodeUE.code = 2 ↔ s.decodeUE = .error .golombOverflow) := by
  cases hd : s.decodeUE with
  | read v p => simp [UEResult.code]
  | error e => rcases State.decodeUE_error hd with rfl | rfl <;> simp [UEResult.code, ResultCode.toBits]

/-! ### What a covered command's code says -/

/-- A covered command is completed by an error that changes STATUS alone, or with the code OK. -/
theorem State.Covered.raised_or_ok (hc : s.Covered) (h : s.runCommand = .next t) :
    (∃ e : ResultCode, t = s.complete e.toBits) ∨ t.code = 0 := by
  rcases s.runCommand_cases with ⟨i, hi, hr⟩ | ⟨why, -, hr⟩ <;> rw [hr] at h
  · rcases exec_cases i s with ⟨e, -, he⟩ | ⟨v, p, -, -, -, he⟩ | ⟨n, v, -, he⟩ | ⟨-, -, he⟩ |
      ⟨n, rfl, hn, -⟩
    · cases he.symm.trans h
      exact .inl ⟨e, rfl⟩
    · cases he.symm.trans h
      exact .inr rfl
    · cases he.symm.trans h
      exact .inr rfl
    · cases he.symm.trans h
      exact .inr rfl
    · cases hn.symm.trans (hc n hi)
  · cases h
    exact .inl ⟨.illegalCommand, rfl⟩

/-- Settles O30: the code of each command by its own rule, and for a covered one that an error is raised. -/
theorem eachCommandRaisesOnlyItsCodes : Obligations.EachCommandRaisesOnlyItsCodes := by
  refine ⟨fun s t h => ?_, fun s n hi hn => ⟨fun hfault => ?_, fun hany => ?_⟩⟩
  · have hexec {i : Instr} (hi : decode s.cmd = .legal i) : exec i s = .next t :=
      (State.runCommand_legal hi).symm.trans h
    refine ⟨fun why hi => ?_, fun n hi => State.code_of_rdb (hexec hi), fun n hi hn => ?_, fun hi => ?_,
      fun n hi => ?_, fun hi => ?_, fun hi => State.code_of_epf (hexec hi), fun hc => ?_⟩
    · cases (State.runCommand_of_notLegal (by simp [hi])).symm.trans h
      rfl
    · cases (exec_rdbu_of_avail ((s.avail_iff n).2 hn)).symm.trans (hexec hi)
      rfl
    · exact State.code_of_rdb ((exec_rdf_eq_rdb s).symm.trans (hexec hi))
    · cases (exec_hsp_eq s n).symm.trans (hexec hi)
      rfl
    · have hcode : t.code = s.decodeUE.code :=
        hi.elim (fun hi => State.code_of_golomb (.inl rfl) (hexec hi))
          (fun hi => State.code_of_golomb (.inr rfl) (hexec hi))
      rw [hcode, ← s.decodeUE_eq_overflow_iff]
      exact s.decodeUE_code
    · rcases hc.raised_or_ok h with ⟨e, rfl⟩ | h0
      · exact ⟨e.toBits_le, fun _ => ⟨rfl, rfl⟩⟩
      · exact ⟨by simp [h0], fun hne => absurd h0 hne⟩
  · rw [State.runCommand_legal hi, exec_rdbu_fault hn hfault]
  · rw [State.runCommand_legal hi, exec_rdbu_of_short ((s.not_avail_iff n).2 hn),
      State.uncheckedOverrun_of_anyValue hany]
    exact ⟨_, rfl, rfl⟩

/-- ERR is `(CODE != 0)` (10_state.md R21). -/
theorem State.err_eq_decide (s : State) : s.err = decide (s.code ≠ 0) := by
  rw [State.err, Bool.eq_iff_iff, bne_iff_ne, decide_eq_true_iff]

/-- Settles O33: every command ends in the idle block, and a code other than OK was raised. -/
theorem errorsArePreciseAndAtomic : Obligations.ErrorsArePreciseAndAtomic := by
  intro s t hc h
  obtain ⟨hbusy, hdone, -⟩ := State.runCommand_ends h
  refine ⟨hbusy, hdone, t.err_eq_decide, State.sequencerMove_waits (State.inFlight_of_idle hbusy),
    fun hne => ?_⟩
  rcases hc.raised_or_ok h with ⟨e, rfl⟩ | h0
  · rfl
  · exact absurd h0 hne

end Sys2Proof.Machine
end

section
/-! Reset (O53), a cursor position saved and written back (O55), and the cursor commands before a buffer is
provided (O54). -/

namespace Sys2Proof.Machine

variable {s : State}

/-! ### Reset -/

theorem State.assertReset_registersReset (s : State) : s.assertReset.RegistersReset :=
  ⟨rfl, rfl, rfl, rfl, rfl, rfl, rfl, rfl, rfl, rfl, rfl⟩

/-- While reset is asserted every register holds its reset value (70_reset_and_hazards.md R101). -/
theorem State.Inv.registersReset (h : s.Inv) (hr : s.inReset = true) : s.RegistersReset := by
  obtain ⟨-, -, -, -, -, -, -, -, hreset⟩ := h
  exact hreset hr

theorem State.inFlight_of_inReset (hr : s.inReset = true) : s.inFlight = false := by
  simp [State.inFlight, hr]

/-- A read while reset is asserted returns any value, a reserved offset's too. -/
theorem State.hostEvent_read_inReset (hr : s.inReset = true) {addr : Nat} (ha : s.selects addr = true) :
    s.hostEvent (.read addr) =
      { s with reads := Config.freeWord s.draws :: s.reads, draws := s.draws + 1 } := by
  rw [State.hostEvent_read, if_pos ha, State.hostRead_any (by simp [hr])]

theorem State.hostWrite_inReset (hr : s.inReset = true) (off : Nat) (d : Word) (be : BitVec 4) :
    s.hostWrite off d be = s := if_pos hr

theorem State.hostEvent_write_inReset (hr : s.inReset = true) (addr : Nat) (d : Word) (be : BitVec 4) :
    s.hostEvent (.write addr d be) = s := by
  rw [State.hostEvent_write, State.hostWrite_inReset hr, ite_self]

/-- Settles O53: the assertion resets every register, nothing is in flight while it lasts, and by the invariant
the release finds the registers as the assertion left them. -/
theorem resetAbandonsTheCommand : Obligations.ResetAbandonsTheCommand := by
  refine ⟨fun s => ?_, fun s hr => ?_, fun s hinv hr => ?_⟩
  · exact ⟨s.assertReset_registersReset, rfl, State.irq_of_done_eq_false rfl, rfl, rfl, fun _ => rfl,
      fun _ => rfl⟩
  · exact ⟨State.sequencerMove_waits (State.inFlight_of_inReset hr),
      fun _ => State.hostEvent_read_inReset hr, State.hostEvent_write_inReset hr⟩
  · obtain ⟨-, -, hdone, -⟩ := hinv.registersReset hr
    exact ⟨hinv.registersReset hr, rfl, State.irq_of_done_eq_false hdone, rfl, rfl⟩

/-! ### A saved position -/

/-- A command's next state with the saved POS written back: VAL and STATUS may differ from those of `s`, nothing
else does. -/
abbrev State.rewound (s : State) (v : DWord) (c : BitVec 4) : State := ({ s with val := v } : State).complete c

/-- The command `i`, run again from its next state with the old POS, gives that next state again. -/
def State.Rereads (s : State) (i : Instr) : Prop :=
  ∃ t, exec i s = .next t ∧ exec i { t with pos := s.pos } = .next t

theorem State.rewound_field (s : State) (v : DWord) (c : BitVec 4) (p n : Nat) :
    (s.rewound v c).field p n = s.field p n :=
  congrArg uint (State.bits_congr fun _ _ => rfl)

theorem State.rewound_decodeUE (s : State) (v : DWord) (c : BitVec 4) :
    (s.rewound v c).decodeUE = s.decodeUE :=
  State.decodeUE_congr rfl rfl rfl fun _ _ _ => rfl

theorem State.rewound_readFixed (s : State) (v : DWord) (c : BitVec 4) (n : Nat) :
    (s.rewound v c).readFixed n = s.readFixed n := by
  rw [State.readFixed, State.rewound_field]
  rfl

/-- A fixed-width read overwrites VAL, POS and STATUS with what the rewound state gives again. -/
theorem State.rereads_of_avail {i : Instr} {n : Nat} (hn : s.avail n = true)
    (h : ∀ u : State, u.avail n = true → exec i u = .next (u.readFixed n)) : s.Rereads i := by
  refine ⟨_, h s hn, ?_⟩
  show exec i (s.rewound (s.readFixed n).val 0) = _
  rw [h (s.rewound _ 0) hn, State.rewound_readFixed]

theorem State.rereads_rdb (s : State) (n : Nat) : s.Rereads (.rdb n) := by
  cases hn : s.avail n
  · exact ⟨_, exec_rdb_of_short hn, exec_rdb_of_short (s := s.rewound s.val 1) hn⟩
  · exact State.rereads_of_avail hn fun _ => exec_rdb_of_avail

theorem State.rereads_rdf (s : State) : s.Rereads .rdf := by
  simpa only [State.Rereads, exec_rdf_eq_rdb] using s.rereads_rdb 1

/-- A command whose result is a function of what `DecodeUE` gives, as RDUE and RDSE are. -/
theorem State.rereads_of_decodeUE {i : Instr} {value : Nat → DWord}
    (herror : ∀ (u : State) e, u.decodeUE = .error e → exec i u = .next (u.complete e.toBits))
    (hread : ∀ (u : State) v p, u.decodeUE = .read v p → exec i u = .next (u.commitRead (value v) p)) :
    s.Rereads i := by
  cases hd : s.decodeUE with
  | error e =>
    exact ⟨_, herror s e hd, herror (s.rewound s.val e.toBits) e ((s.rewound_decodeUE _ _).trans hd)⟩
  | read v p =>
    exact ⟨_, hread s v p hd, hread (s.rewound (value v) 0) v p ((s.rewound_decodeUE _ _).trans hd)⟩

/-- HSP keeps POS, so that the space is the same again (40_bit_cursor.md R66). -/
theorem State.rereads_hsp (s : State) (n : Nat) : s.Rereads (.hsp n) :=
  ⟨_, exec_hsp_eq s n, exec_hsp_eq (s.rewound _ 0) n⟩

theorem State.rereads {i : Instr} (hepf : i ≠ .epf) (hrdbu : ∀ n, i = .rdbu n → s.avail n = true) :
    s.Rereads i := by
  cases i with
  | rdb n => exact s.rereads_rdb n
  | rdbu n => exact State.rereads_of_avail (hrdbu n rfl) fun _ => exec_rdbu_of_avail
  | rdf => exact s.rereads_rdf
  | rdue => exact State.rereads_of_decodeUE (fun _ _ => exec_rdue_of_error) fun _ _ _ => exec_rdue_of_read
  | rdse => exact State.rereads_of_decodeUE (fun _ _ => exec_rdse_of_error) fun _ _ _ => exec_rdse_of_read
  | hsp n => exact s.rereads_hsp n
  | epf => exact absurd rfl hepf

/-- Settles O55: command by command, what it reads is in the rewound state as it was. -/
theorem savedPositionRereads : Obligations.SavedPositionRereads := by
  intro s t i hepf hrdbu h
  obtain ⟨t', ht, ht'⟩ := State.rereads hepf hrdbu
  cases h.symm.trans ht
  exact ht'

/-! ### Before a buffer is provided -/

/-- A field of no bits is 0 and does not move POS (00_scope.md R9, R11). -/
theorem State.readFixed_zero (s : State) : s.readFixed 0 = ({ s with val := 0 } : State).completeOk := by
  rw [State.readFixed, State.field_zero, Nat.add_zero, State.commitRead, BitVec.ofNat_toNat,
    BitVec.setWidth_eq]
  rfl

/-- Settles O54: an empty buffer has no bit to read, and a read of 0 bits needs none. -/
theorem readsBeforeLoadingFail : Obligations.ReadsBeforeLoadingFail := by
  intro s hlen hpos n hn
  have hshort {m : Nat} (hm : 1 ≤ m) : s.avail m = false := by
    rw [s.not_avail_iff, hlen, hpos]
    simpa using Nat.zero_lt_of_lt hm
  have hdecode : s.decodeUE = .error .insufficientBits :=
    State.decodeUE_of_noBits (by simp [State.bitLen, hlen])
  have hzero : s.avail 0 = true := (s.avail_iff 0).2 (by simp [hpos])
  refine ⟨exec_rdb_of_short (hshort hn), exec_rdf_of_short (hshort le_rfl), exec_rdue_of_error hdecode,
    exec_rdse_of_error hdecode, ?_, ?_⟩
  · rw [exec_hsp_eq, hshort hn]
    rfl
  · rw [exec_rdb_of_avail hzero, State.readFixed_zero]
    rfl

end Sys2Proof.Machine
end
